-- ==== Sys2Proof/Word.lean ====
section
/-! DEFINITION. The word types of the block (00_scope.md R7: every value is an unsigned number of a stated width). -/

namespace Sys2Proof

/-- 8 bits: a byte of a frame. -/
abbrev Byte := BitVec 8

/-- 16 bits: a bus offset, a length, a checksum. -/
abbrev Half := BitVec 16

/-- 32 bits: a register as the bus moves it, a command word. -/
abbrev Word := BitVec 32

end Sys2Proof
end

