-- ==== Sys2Proof/Config.lean ====
section
/-! DEFINITION. The implementation parameters (00_scope.md R6) and the free values (`draw()`, 93_implementation_defined.md). -/

namespace Sys2Proof

/-- The parameters a model takes (00_scope.md R6). It is carried in the state and no step changes it, so a
statement over every state holds for every BUF_SIZE. DESIGN CHOICE, safe: log entry 12. -/
structure Config where
  /-- BUF_SIZE: the size in bytes of the frame buffer FB; legal range 25 to 32768. -/
  bufSize : Nat
deriving DecidableEq, Repr

/-- The spec's default (R6): BUF_SIZE = 1024. -/
def Config.default : Config := { bufSize := 1024 }

/-- MAX_PAYLOAD (R6): BUF_SIZE - 25. As in the spec's pseudocode, 23 stands for HDR_LEN (2 + 2 + 6 + 6 + 1 + 2 + 1 + 1 + 2)
and 25 for MIN_FRAME (HDR_LEN + 2) throughout the model. -/
def Config.maxPayload (c : Config) : Nat := c.bufSize - 25

/-- BLOCK_BASE (R6, R70): the platform's address of the window, left open. It is uninterpreted, and the block
never sees it: no step uses it. DESIGN CHOICE, safe: log entry 11. -/
opaque Config.blockBase : Nat

/-- The platform address of a block offset (R70). -/
def Config.platformAddr (offset : Half) : Nat := Config.blockBase + offset.toNat

/-- FREE VALUE: the contents of FB byte `i` after the `epoch`-th power-on reset, until it is written (U1:
any value, per byte, fixed until written). DEDUCED (R43 says `draw()`), unsafe: log entry 1. -/
opaque Config.powerOnByte : Nat → Nat → Byte

/-- FREE VALUE: the byte of the `n`-th `draw()` (U2, U3, U4). DESIGN CHOICE, safe: log entry 2. -/
opaque Config.freeByte : Nat → Byte

/-- FREE VALUE: the word of the `n`-th `draw()` (U3, U4). DESIGN CHOICE, safe: log entry 2. -/
opaque Config.freeWord : Nat → Word

/-- FREE VALUE: for how many moves after its acceptance the `n`-th accepted command stays pending when no turn is listed:
finite and unbounded (U7, 70_reset_and_hazards.md R278). DESIGN CHOICE, safe: log entry 16. -/
opaque Config.engineDelay : Nat → Nat

/-- FREE VALUE: what a host variable that no line has assigned holds. DESIGN CHOICE, safe: log entry 8. -/
opaque Config.hostVarInit : Nat → Word

end Sys2Proof
end

