-- ==== Sys2Proof/Syntax.lean ====
section
/-! DEFINITION. The commands (30_encoding.md R101): one constructor per row of spec/opcode_table.json. -/

namespace Sys2Proof

/-- A command, the block's counterpart of an instruction (00_scope.md R11). -/
inductive Instr where
  /-- NOP, 42_control.md R200 -/
  | nop
  /-- ENCODE, 40_framer.md R140 -/
  | encode
  /-- DECODE, 40_framer.md R150 -/
  | decode
  /-- CRC_INIT, 41_crc.md R183 -/
  | crcInit
  /-- CRC_BYTE with its operand DATA8, 41_crc.md R184 -/
  | crcByte (d : Byte)
  /-- CRC_BUF, 41_crc.md R185 -/
  | crcBuf
deriving DecidableEq, Repr

end Sys2Proof
end

