-- ==== Sys2Proof/WellFormed.lean ====
section
/-! DEFINITION. Well-formedness: the operand fields a command's format admits (30_encoding.md R100, R103) and the
legal range of the one parameter (00_scope.md R6). -/

namespace Sys2Proof

/-- The two formats of a command word (R100). -/
inductive Format where
  /-- no operand: DATA8 = 0 and RSVD = 0 -/
  | c0
  /-- an 8-bit operand in DATA8; RSVD = 0 -/
  | c8
deriving DecidableEq, Repr

/-- The operand fields of a command word (R100): bits [15:8] and bits [31:16]. -/
structure OperandFields where
  data8 : Byte
  rsvd : Half
deriving DecidableEq, Repr

/-- Which operand fields a format admits (R103). -/
def Format.admits : Format → OperandFields → Bool
  | .c0, f => f.data8 == 0 && f.rsvd == 0
  | .c8, f => f.rsvd == 0

/-- The format of each command (R101). -/
def Instr.format : Instr → Format
  | .nop | .encode | .decode | .crcInit | .crcBuf => .c0
  | .crcByte _ => .c8

/-- The operand fields a command puts into its word (R102). -/
def Instr.operandFields : Instr → OperandFields
  | .nop | .encode | .decode | .crcInit | .crcBuf => { data8 := 0, rsvd := 0 }
  | .crcByte d => { data8 := d, rsvd := 0 }

/-- A command is well formed when its format admits its operand fields. -/
def Instr.wf (i : Instr) : Bool := i.format.admits i.operandFields

/-- BUF_SIZE lies in its legal range (R6). -/
def Config.legal (c : Config) : Bool := decide (25 ≤ c.bufSize) && decide (c.bufSize ≤ 32768)

end Sys2Proof
end

