-- ==== Sys2Proof/Decode.lean ====
section
/-! DEFINITION. The decoder of 30_encoding.md R104, total on every 32-bit word, and the encoder written from the
same opcode map (R101). -/

namespace Sys2Proof

/-- The six operations of the opcode map (R101), without their operands. -/
inductive OpName where
  | nop | encode | decode | crcInit | crcByte | crcBuf
deriving DecidableEq, Repr

/-- One row of the opcode map (R101): `w AND mask = match` selects it. -/
structure OpcodeRow where
  op : OpName
  matchWord : Word
  mask : Word
deriving DecidableEq, Repr

/-- The opcode map (R101; spec/opcode_table.json holds the same rows). -/
def opcodeMap : List OpcodeRow := [
  { op := .nop,     matchWord := 0x00000000, mask := 0xFFFFFFFF },
  { op := .encode,  matchWord := 0x00000001, mask := 0xFFFFFFFF },
  { op := .decode,  matchWord := 0x00000002, mask := 0xFFFFFFFF },
  { op := .crcInit, matchWord := 0x00000010, mask := 0xFFFFFFFF },
  { op := .crcByte, matchWord := 0x00000011, mask := 0xFFFF00FF },
  { op := .crcBuf,  matchWord := 0x00000012, mask := 0xFFFFFFFF } ]

/-- `w` selects the row (R101). -/
def OpcodeRow.selects (row : OpcodeRow) (w : Word) : Bool := w &&& row.mask == row.matchWord

/-- OP: bits [7:0] of a command word (R100). -/
def cmdOp (w : Word) : Byte := w.extractLsb' 0 8

/-- DATA8: bits [15:8] of a command word (R100, R102). -/
def cmdData8 (w : Word) : Byte := w.extractLsb' 8 8

/-- RSVD: bits [31:16] of a command word (R100). -/
def cmdRsvd (w : Word) : Half := w.extractLsb' 16 16

/-- Why a word is ILLEGAL (R105). -/
inductive IllegalWord where
  /-- an OP value the opcode map does not list (R101) -/
  | unknownOpcode (op : Byte)
  /-- a legal OP whose DATA8 or RSVD bits are not as its format requires (R103) -/
  | operandBits (op : Byte)
deriving DecidableEq, Repr

/-- The command a selected row stands for; only CRC_BYTE takes its operand from the word (R104). -/
def OpName.command : OpName → Word → Instr
  | .nop, _ => .nop
  | .encode, _ => .encode
  | .decode, _ => .decode
  | .crcInit, _ => .crcInit
  | .crcByte, w => .crcByte (cmdData8 w)
  | .crcBuf, _ => .crcBuf

/-- The name of the rejection of a word that no row selects (R105). -/
def illegalReason (w : Word) : IllegalWord :=
  if opcodeMap.any (fun row => row.matchWord == (cmdOp w).setWidth 32) then .operandBits (cmdOp w)
  else .unknownOpcode (cmdOp w)

/-- `decode` of R104: the first row that selects the word, or ILLEGAL. -/
def decodeCmd (w : Word) : Except IllegalWord Instr :=
  match opcodeMap.find? (fun row => row.selects w) with
  | some row => .ok (row.op.command w)
  | none => .error (illegalReason w)

/-- The OP value of each command (R101). -/
def Instr.opcode : Instr → Byte
  | .nop => 0x00
  | .encode => 0x01
  | .decode => 0x02
  | .crcInit => 0x10
  | .crcByte _ => 0x11
  | .crcBuf => 0x12

/-- The word of a command: `{ RSVD, DATA8, OP }` (R100). -/
def encodeCmd (i : Instr) : Word := i.operandFields.rsvd ++ i.operandFields.data8 ++ i.opcode

/-- The instruction the decoder reads from the low `nbits` bits of `w`; the bits above are 0. A command word is
one number on the bus (20_memory.md R72), so no byte order enters. -/
def decodeTableWord (nbits w : Nat) : Option Instr :=
  match decodeCmd (BitVec.ofNat 32 (w % 2 ^ nbits)) with
  | .ok i => some i
  | .error _ => none

end Sys2Proof
end

