-- ==== Sys2Proof/Machine/Types.lean ====
section
/-! DEFINITION. The plain data the state and the operations are made of: register names, bus responses, host
program lines, agents, error codes. -/

namespace Sys2Proof.Machine

/-- The 26 registers of 10_state.md R22. -/
inductive RegName where
  | ctrl | status | cmd | flen | plen | evt | crc | crcOff | crcLen
  | txPre | txSidHi | txSidLo | txRidHi | txRidLo | txHdr
  | csumCalc | csumRx
  | rxPre | rxLen | rxSidHi | rxSidLo | rxRidHi | rxRidLo | rxHdr | rxEvt | rxRsv
deriving DecidableEq, Repr

/-- The outcome codes of a command (60_exceptions.md R220). -/
inductive ErrCode where
  | ok | frameTooShort | checksumMismatch | lengthMismatch | frameTooLong | payloadTooLong | rangeError | illegalCmd
deriving DecidableEq, Repr

/-- What the bus answers to a transaction (20_memory.md R72, R79). -/
inductive Response where
  /-- a read's value; a byte is widened with zero bits -/
  | readOk (v : Word)
  /-- a write was performed -/
  | writeOk
  /-- a read got a bus error; the data is a free value -/
  | readError (addr : Half) (v : Word)
  /-- a write got a bus error and changed nothing -/
  | writeError (addr : Half)
deriving DecidableEq, Repr

/-- One line of a host program (30_encoding.md R120): one bus transaction of R72, or the host-side branch.
A host variable is named by a number, a label by the index of the line it names. -/
inductive Line where
  /-- `x <- MemRead(addr, 4)` -/
  | read4 (addr : Half) (x : Nat)
  /-- `x <- MemRead(addr, 1)` -/
  | read1 (addr : Half) (x : Nat)
  /-- `MemWrite(addr, 4, v)` -/
  | write4 (addr : Half) (v : Word)
  /-- `MemWrite(addr, 1, v)` -/
  | write1 (addr : Half) (v : Byte)
  /-- `bnz x[k], target`: no bus transaction -/
  | bnz (x : Nat) (k : Fin 32) (target : Nat)
deriving DecidableEq, Repr

/-- Who moves next: the two agents of 10_state.md R20, and a pulse of the reset pin (70_reset_and_hazards.md R260). -/
inductive Turn where
  | host
  | engine
  | powerOnReset
deriving DecidableEq, Repr

end Sys2Proof.Machine
end

