-- ==== Sys2Proof/Machine/State.lean ====
section
/-! DEFINITION. The state of the block and its agents, the reasons a step can stop, and the state after reset. -/

namespace Sys2Proof.Machine

/-- The stored bits of the registers of 10_state.md R22; every bit not stored reads 0 (R23). CMD stores nothing
(R26), CTRL.SRST stores nothing (R24), and STATUS.BUSY is PEND's valid bit (R45). -/
@[ext]
structure Regs where
  /-- CTRL.IE -/
  ie : Bool
  /-- STATUS.DONE -/
  done : Bool
  /-- STATUS.ERR -/
  err : BitVec 4
  /-- STATUS.OVR -/
  ovr : Bool
  flen : Half
  plen : Half
  evt : Half
  crc : Half
  crcOff : Half
  crcLen : Half
  txPre : Half
  txSidHi : Half
  txSidLo : Word
  txRidHi : Half
  txRidLo : Word
  /-- SUB, FUNC, GRP from the top (R34) -/
  txHdr : BitVec 24
  csumCalc : Half
  csumRx : Half
  rxPre : Half
  rxLen : Half
  rxSidHi : Half
  rxSidLo : Word
  rxRidHi : Half
  rxRidLo : Word
  /-- SUB, FUNC, GRP from the top (R39) -/
  rxHdr : BitVec 24
  rxEvt : Half
  rxRsv : Half
deriving DecidableEq, Repr

/-- The host agent (R20): its program (30_encoding.md R120), its place in it, its variables by number in rising
order, the last bus response, and whether a STATUS read has returned BUSY = 0 since the last accepted CMD write
(70_reset_and_hazards.md R279; DESIGN CHOICE, unsafe for the end of a program with no command: log entry 15). -/
structure HostAgent where
  prog : List Line
  pc : Nat
  vars : List (Nat × Word)
  resp : Option Response
  idleSeen : Bool
deriving DecidableEq, Repr

/-- The whole state. `cfg`, `regs`, `pend` and `fb` are the block's; `host` is the host agent's; `epoch`, `draws`,
`turns`, `issued` and `waited` are the model's own (DESIGN CHOICE: log entries 1, 2, 4 and 16). -/
@[ext]
structure State where
  cfg : Config
  regs : Regs
  /-- PEND (R45): `none` when not valid -/
  pend : Option Word
  /-- FB (R42): the written bytes by index, strictly rising; an index not listed is unwritten (R43) -/
  fb : List Host.Cell
  host : HostAgent
  /-- power-on resets so far: which power-on contents an unwritten byte has -/
  epoch : Nat
  /-- `draw()`s so far -/
  draws : Nat
  /-- the moves to come, where they are listed; when none is, Machine/Schedule.lean says who moves -/
  turns : List Turn
  /-- CMD writes accepted so far: which free delay the pending command has -/
  issued : Nat
  /-- moves since the last accepted CMD write -/
  waited : Nat
deriving DecidableEq, Repr

/-- Why the machine stops. -/
inductive Fault where
  /-- HazardWriteWhileBusy: raised by a host write of FLEN, PLEN, EVT, CRC, CRC_OFF, CRC_LEN, a TX register or an FB
  byte while BUSY = 1 (70_reset_and_hazards.md R270, U5). Safe: the spec itself ends the run there. -/
  | hazardWriteWhileBusy (addr : Half)
deriving DecidableEq, Repr

/-- Why a step has no meaning. -/
inductive Refusal where
  /-- Raised only by an arm of `exec` that has no meaning yet (there is none). Safe. -/
  | notModelled (mnemonic : String)
deriving DecidableEq, Repr

/-- The registers after the power-on reset and after the soft reset (70_reset_and_hazards.md R261, R262). -/
def Regs.reset : Regs where
  ie := false
  done := false
  err := 0
  ovr := false
  flen := 0x0000
  plen := 0x0000
  evt := 0x0001
  crc := 0xFFFF
  crcOff := 0x0000
  crcLen := 0x0000
  txPre := 0x0000
  txSidHi := 0x0000
  txSidLo := 0x00000000
  txRidHi := 0x0000
  txRidLo := 0x00000000
  txHdr := 0x000000
  csumCalc := 0x0000
  csumRx := 0x0000
  rxPre := 0x0000
  rxLen := 0x0000
  rxSidHi := 0x0000
  rxSidLo := 0x00000000
  rxRidHi := 0x0000
  rxRidLo := 0x00000000
  rxHdr := 0x000000
  rxEvt := 0x0000
  rxRsv := 0x0000

/-- A host with no program (DESIGN CHOICE: log entries 5, 8 and 15). -/
def HostAgent.reset : HostAgent := { prog := [], pc := 0, vars := [], resp := none, idleSeen := true }

/-- The machine right after the power-on reset (R260, R261): the default parameter, no command pending, every FB
byte unwritten, and a host that has nothing to do. -/
def State.reset : State where
  cfg := Config.default
  regs := Regs.reset
  pend := none
  fb := []
  host := HostAgent.reset
  epoch := 0
  draws := 0
  turns := []
  issued := 0
  waited := 0

end Sys2Proof.Machine
end

