-- ==== Sys2Proof/Machine/Memory.lean ====
section
/-! DEFINITION. Lists of (index, value) pairs in one canonical form: strictly rising indexes. FB is one (bytes by FB
index), the host's variables are another. What an unlisted index reads as is `none`: FB byte not written (R43). -/

namespace Sys2Proof.Machine

/-- The value listed at an index; `none` when nothing is listed there (an unwritten FB byte). -/
def cellGet {α : Type} : List (Nat × α) → Nat → Option α
  | [], _ => none
  | (k, v) :: rest, i => if k = i then some v else cellGet rest i

/-- List `v` at index `i`, in place of what was listed there, keeping the indexes rising. -/
def cellPut {α : Type} : List (Nat × α) → Nat → α → List (Nat × α)
  | [], i, v => [(i, v)]
  | (k, u) :: rest, i, v =>
    if k < i then (k, u) :: cellPut rest i v
    else if k = i then (i, v) :: rest
    else (i, v) :: (k, u) :: rest

/-- The canonical form: indexes strictly rising. Since an unlisted index reads as `none`, no entry can equal it. -/
abbrev cellsWf {α : Type} (l : List (Nat × α)) : Prop := (l.map Prod.fst).Pairwise (· < ·)

/-- Every listed index lies below `n`. -/
abbrev cellsBelow {α : Type} (n : Nat) (l : List (Nat × α)) : Prop := ∀ c ∈ l, c.1 < n

/-- The form FB keeps (R42): canonical, and no index at or above BUF_SIZE. -/
abbrev Memory.wf (bufSize : Nat) (fb : List Host.Cell) : Prop := cellsWf fb ∧ cellsBelow bufSize fb

end Sys2Proof.Machine
end

