-- ==== Sys2Proof/Machine/Operands.lean ====
section
/-! DEFINITION. Operand forms: the byte order of fields (00_scope.md R8, 20_memory.md R80), the identifier and header
register layouts (10_state.md R33, R34), and the register map (10_state.md R22, R23). -/

namespace Sys2Proof.Machine

/-! ### Bytes of a field, most significant first (R8) -/

/-- Bits [15:8]. -/
def hiByte (v : Half) : Byte := v.extractLsb' 8 8

/-- Bits [7:0]. -/
def loByte (v : Half) : Byte := v.extractLsb' 0 8

/-- `{ hi, lo }`: a 16-bit big-endian field. -/
def be16 (hi lo : Byte) : Half := hi ++ lo

/-- `{ b0, b1, b2, b3 }`: a 32-bit big-endian value. -/
def be32 (b0 b1 b2 b3 : Byte) : Word := b0 ++ b1 ++ b2 ++ b3

/-- `{ HI[15:0], LO[31:0] }`: a 6-byte identifier as 48 bits (10_state.md R33). -/
def id48 (hi : Half) (lo : Word) : BitVec 48 := hi ++ lo

/-- Byte `k` of an identifier, `v[47-8k : 40-8k]` (R33). -/
def idByte (v : BitVec 48) (k : Nat) : Byte := v.extractLsb' (40 - 8 * k) 8

/-- The six bytes of an identifier in the order they are sent (R33). -/
def idBytes (hi : Half) (lo : Word) : List Byte := (List.range 6).map (idByte (id48 hi lo))

/-- GRP, bits [7:0] of TX_HDR and RX_HDR (R34, R39). -/
def hdrGrp (v : BitVec 24) : Byte := v.extractLsb' 0 8

/-- FUNC, bits [15:8] (R34, R39). -/
def hdrFunc (v : BitVec 24) : Byte := v.extractLsb' 8 8

/-- SUB, bits [23:16] (R34, R39). -/
def hdrSub (v : BitVec 24) : Byte := v.extractLsb' 16 8

/-- `{ SUB, FUNC, GRP }` (R150). -/
def hdrPack (sub func grp : Byte) : BitVec 24 := sub ++ func ++ grp

/-! ### The register map (10_state.md R22) -/

/-- The registers in the order of R22. -/
def regList : List RegName := [
  .ctrl, .status, .cmd, .flen, .plen, .evt, .crc, .crcOff, .crcLen,
  .txPre, .txSidHi, .txSidLo, .txRidHi, .txRidLo, .txHdr,
  .csumCalc, .csumRx,
  .rxPre, .rxLen, .rxSidHi, .rxSidLo, .rxRidHi, .rxRidLo, .rxHdr, .rxEvt, .rxRsv ]

/-- The byte offset of a register (R22). -/
def regOffset : RegName → Half
  | .ctrl => 0x0000
  | .status => 0x0004
  | .cmd => 0x0008
  | .flen => 0x000C
  | .plen => 0x0010
  | .evt => 0x0014
  | .crc => 0x0018
  | .crcOff => 0x001C
  | .crcLen => 0x0020
  | .txPre => 0x0024
  | .txSidHi => 0x0028
  | .txSidLo => 0x002C
  | .txRidHi => 0x0030
  | .txRidLo => 0x0034
  | .txHdr => 0x0038
  | .csumCalc => 0x003C
  | .csumRx => 0x0040
  | .rxPre => 0x0044
  | .rxLen => 0x0048
  | .rxSidHi => 0x004C
  | .rxSidLo => 0x0050
  | .rxRidHi => 0x0054
  | .rxRidLo => 0x0058
  | .rxHdr => 0x005C
  | .rxEvt => 0x0060
  | .rxRsv => 0x0064

/-- The register at an offset, if there is one there (R22). -/
def regAt (addr : Half) : Option RegName := regList.find? (fun r => regOffset r == addr)

/-- The column "Bits used" of R22, as a mask; every other bit of a register is reserved (R23). -/
def regUsedBits : RegName → Word
  | .ctrl => 0x00000003
  | .status => 0x000001F3
  | .cmd => 0xFFFFFFFF
  | .flen | .plen | .evt | .crc | .crcOff | .crcLen => 0x0000FFFF
  | .txPre | .txSidHi | .txRidHi => 0x0000FFFF
  | .txSidLo | .txRidLo => 0xFFFFFFFF
  | .txHdr => 0x00FFFFFF
  | .csumCalc | .csumRx => 0x0000FFFF
  | .rxPre | .rxLen | .rxSidHi | .rxRidHi | .rxEvt | .rxRsv => 0x0000FFFF
  | .rxSidLo | .rxRidLo => 0xFFFFFFFF
  | .rxHdr => 0x00FFFFFF

/-- The registers of the hazard list of 70_reset_and_hazards.md R270: those whose write is an ordinary store (R44). -/
def regIsInput : RegName → Bool
  | .flen | .plen | .evt | .crc | .crcOff | .crcLen => true
  | .txPre | .txSidHi | .txSidLo | .txRidHi | .txRidLo | .txHdr => true
  | .ctrl | .status | .cmd => false
  | .csumCalc | .csumRx => false
  | .rxPre | .rxLen | .rxSidHi | .rxSidLo | .rxRidHi | .rxRidLo | .rxHdr | .rxEvt | .rxRsv => false

/-- A host write stores the written bits into the writable field of an ordinary register and ignores the others
(R23, R44); a write of a read-only register stores nothing (R22). CTRL, STATUS and CMD have rules of their own. -/
def storeReg (r : RegName) (v : Word) (g : Regs) : Regs :=
  match r with
  | .flen => { g with flen := v.setWidth 16 }
  | .plen => { g with plen := v.setWidth 16 }
  | .evt => { g with evt := v.setWidth 16 }
  | .crc => { g with crc := v.setWidth 16 }
  | .crcOff => { g with crcOff := v.setWidth 16 }
  | .crcLen => { g with crcLen := v.setWidth 16 }
  | .txPre => { g with txPre := v.setWidth 16 }
  | .txSidHi => { g with txSidHi := v.setWidth 16 }
  | .txSidLo => { g with txSidLo := v }
  | .txRidHi => { g with txRidHi := v.setWidth 16 }
  | .txRidLo => { g with txRidLo := v }
  | .txHdr => { g with txHdr := v.setWidth 24 }
  | .ctrl | .status | .cmd => g
  | .csumCalc | .csumRx => g
  | .rxPre | .rxLen | .rxSidHi | .rxSidLo | .rxRidHi | .rxRidLo | .rxHdr | .rxEvt | .rxRsv => g

end Sys2Proof.Machine
end

