-- ==== Sys2Proof/Machine/Flags.lean ====
section
/-! DEFINITION. The status flags: BUSY, DONE, ERR, OVR (10_state.md R25), the error codes (60_exceptions.md R220), the
interrupt (60_exceptions.md R230), and the value a register reads as. -/

namespace Sys2Proof.Machine

/-- STATUS.BUSY: equal to the valid bit of PEND (10_state.md R45). -/
def busy (s : State) : Bool := s.pend.isSome

/-- `irq = CTRL.IE AND STATUS.DONE`, a level (60_exceptions.md R230). -/
def State.irq (s : State) : Bool := s.regs.ie && s.regs.done

/-- The value of an error code (R220). -/
def errValue : ErrCode → BitVec 4
  | .ok => 0
  | .frameTooShort => 1
  | .checksumMismatch => 2
  | .lengthMismatch => 3
  | .frameTooLong => 4
  | .payloadTooLong => 5
  | .rangeError => 6
  | .illegalCmd => 7

/-- CTRL as it reads: IE in bit 0; SRST and the reserved bits read 0 (R24). -/
def ctrlWord (s : State) : Word := (BitVec.ofBool s.regs.ie).setWidth 32

/-- STATUS as it reads: `{ 0, OVR, ERR, 00, DONE, BUSY }` (R25). -/
def statusWord (s : State) : Word :=
  0#23 ++ BitVec.ofBool s.regs.ovr ++ s.regs.err ++ 0#2 ++ BitVec.ofBool s.regs.done ++ BitVec.ofBool (busy s)

/-- A register as it reads, with every reserved bit 0 (R22, R23); CMD reads 0 (R26). -/
def regValue (s : State) : RegName → Word
  | .ctrl => ctrlWord s
  | .status => statusWord s
  | .cmd => 0
  | .flen => s.regs.flen.setWidth 32
  | .plen => s.regs.plen.setWidth 32
  | .evt => s.regs.evt.setWidth 32
  | .crc => s.regs.crc.setWidth 32
  | .crcOff => s.regs.crcOff.setWidth 32
  | .crcLen => s.regs.crcLen.setWidth 32
  | .txPre => s.regs.txPre.setWidth 32
  | .txSidHi => s.regs.txSidHi.setWidth 32
  | .txSidLo => s.regs.txSidLo
  | .txRidHi => s.regs.txRidHi.setWidth 32
  | .txRidLo => s.regs.txRidLo
  | .txHdr => s.regs.txHdr.setWidth 32
  | .csumCalc => s.regs.csumCalc.setWidth 32
  | .csumRx => s.regs.csumRx.setWidth 32
  | .rxPre => s.regs.rxPre.setWidth 32
  | .rxLen => s.regs.rxLen.setWidth 32
  | .rxSidHi => s.regs.rxSidHi.setWidth 32
  | .rxSidLo => s.regs.rxSidLo
  | .rxRidHi => s.regs.rxRidHi.setWidth 32
  | .rxRidLo => s.regs.rxRidLo
  | .rxHdr => s.regs.rxHdr.setWidth 32
  | .rxEvt => s.regs.rxEvt.setWidth 32
  | .rxRsv => s.regs.rxRsv.setWidth 32

/-- A write to STATUS clears DONE and OVR where the written bit is 1, and changes nothing else (R25). -/
def clearStatus (v : Word) (g : Regs) : Regs :=
  { g with done := g.done && !v.getLsbD 1, ovr := g.ovr && !v.getLsbD 8 }

end Sys2Proof.Machine
end

