-- ==== Sys2Proof/Machine/Ops.lean ====
section
/-! DEFINITION. The named operations over FB, PEND and the registers: byte access to FB, `complete` (the block's one
way to end a command; it has no traps, 60_exceptions.md R224), accepting a command word, the two resets. -/

namespace Sys2Proof.Machine

/-! ### The frame buffer -/

/-- `FB[i]`: the byte last written, or the free value of an unwritten byte (10_state.md R43, U1). -/
def fbByte (s : State) (i : Nat) : Byte := (cellGet s.fb i).getD (Config.powerOnByte s.epoch i)

/-- `FB[o .. o + n - 1]` (00_scope.md R9). -/
def fbRange (s : State) (o n : Nat) : List Byte := (List.range n).map (fun k => fbByte s (o + k))

/-- `{ FB[i], FB[i + 1] }`: a 16-bit big-endian field of the frame (20_memory.md R80). -/
def fbHalf (s : State) (i : Nat) : Half := be16 (fbByte s i) (fbByte s (i + 1))

/-- `{ FB[i], .., FB[i + 3] }`. -/
def fbWord (s : State) (i : Nat) : Word :=
  be32 (fbByte s i) (fbByte s (i + 1)) (fbByte s (i + 2)) (fbByte s (i + 3))

/-- `FB[i] <- v`. -/
def fbWrite (i : Nat) (v : Byte) (s : State) : State := { s with fb := cellPut s.fb i v }

/-- `FB[i] <- b0; FB[i + 1] <- b1; ..` in that order. -/
def fbWrites : Nat → List Byte → State → State
  | _, [], s => s
  | i, b :: rest, s => fbWrites (i + 1) rest (fbWrite i b s)

/-- `FB[i] <- draw()` for each listed index that lies inside FB: a fresh free value each (42_control.md R206, U2). -/
def fbDraw : List Nat → State → State
  | [], s => s
  | i :: rest, s =>
    fbDraw rest
      (if i < s.cfg.bufSize then { fbWrite i (Config.freeByte s.draws) s with draws := s.draws + 1 } else s)

/-! ### Commands -/

/-- `complete(code)` (60_exceptions.md R222): ERR, BUSY, DONE and PEND, and neither OVR nor CTRL. -/
def complete (code : ErrCode) (s : State) : State :=
  { s with regs := { s.regs with err := errValue code, done := true }, pend := none }

/-- The engine meets an illegal word (42_control.md R201): it completes with ILLEGAL_CMD and has no other effect. -/
def completeIllegal (s : State) : State := complete .illegalCmd s

/-- An accepted CMD write (10_state.md R26): the word is latched unchecked, BUSY is set, DONE and ERR are cleared.
The host has then not yet seen BUSY = 0 for this command (70_reset_and_hazards.md R279), and the moves it may stay
pending are counted from here (R278). -/
def acceptCmd (w : Word) (s : State) : State :=
  { s with
    regs := { s.regs with done := false, err := 0 },
    pend := some w,
    host := { s.host with idleSeen := false },
    issued := s.issued + 1,
    waited := 0 }

/-- A CMD write (R26): accepted, or dropped with OVR when a command is pending (60_exceptions.md R225). -/
def writeCmd (w : Word) (s : State) : State :=
  if busy s then { s with regs := { s.regs with ovr := true } } else acceptCmd w s

/-! ### Resets -/

/-- The FB bytes an ENCODE writes, of which an aborted one may have written some (42_control.md R206). -/
def encodeOutputs (s : State) : List Nat :=
  List.range 23 ++ [23 + s.regs.plen.toNat, 24 + s.regs.plen.toNat]

/-- The pending word is an ENCODE. -/
def encodePending (s : State) : Bool :=
  match s.pend with
  | some w => match decodeCmd w with
    | .ok .encode => true
    | .ok .nop | .ok .decode | .ok .crcInit | .ok (.crcByte _) | .ok .crcBuf => false
    | .error _ => false
  | none => false

/-- `abort(PEND)` (R206): an aborted ENCODE leaves free values in the bytes it may have written; any other command
leaves no trace in FB. PLEN cannot have changed since the ENCODE was accepted (R270). DEDUCED, safe: log entries 6 and
14. -/
def abortPending (s : State) : State := if encodePending s then fbDraw (encodeOutputs s) s else s

/-- SOFT_RESET (42_control.md R205). -/
def softReset (s : State) : State := { abortPending s with regs := Regs.reset, pend := none }

/-- A pulse of `rst_n` (70_reset_and_hazards.md R260, R261): the registers and PEND as after reset, every FB byte
unwritten again, with new power-on contents. One step: DESIGN CHOICE, safe for the block, log entry 10. -/
def powerOnReset (s : State) : State :=
  { s with regs := Regs.reset, pend := none, fb := [], epoch := s.epoch + 1 }

end Sys2Proof.Machine
end

