-- ==== Sys2Proof/Machine/Control.lean ====
section
/-! DEFINITION. The control command NOP (42_control.md R200). -/

namespace Sys2Proof.Machine

/-- NOP does nothing but complete (R200). -/
def execNop (s : State) : Host.Outcome State Fault Refusal := .next (complete .ok s)

end Sys2Proof.Machine
end

