-- ==== Sys2Proof/Machine/Crc.lean ====
section
/-! DEFINITION. The CRC-16 generator (41_crc.md R180 to R182) and its three commands (R183 to R185). -/

namespace Sys2Proof.Machine

/-- One bit of R180: shift left, and XOR the polynomial when the top bit was set. -/
def crcShift (c : Half) : Half := if c.getLsbD 15 then (c <<< 1) ^^^ 0x1021#16 else c <<< 1

/-- `n` bits of R180. -/
def crcShifts : Nat → Half → Half
  | 0, c => c
  | n + 1, c => crcShifts n (crcShift c)

/-- `crc16_step` (R180): the byte enters the high byte, then 8 shifts. -/
def crc16Step (c : Half) (b : Byte) : Half := crcShifts 8 (c ^^^ (b.setWidth 16 <<< 8))

/-- `crc16` (R181): the step folded over a byte string, first byte first. -/
def crc16 (bytes : List Byte) (c0 : Half) : Half := bytes.foldl crc16Step c0

/-- CRC_INIT_VALUE (00_scope.md R6). -/
def crcInitValue : Half := 0xFFFF

/-- `R[CRC] <- c`. -/
def setCrc (c : Half) (s : State) : State := { s with regs := { s.regs with crc := c } }

/-- CRC_INIT (R183). -/
def execCrcInit (s : State) : Host.Outcome State Fault Refusal :=
  .next (complete .ok (setCrc crcInitValue s))

/-- CRC_BYTE (R184). -/
def execCrcByte (d : Byte) (s : State) : Host.Outcome State Fault Refusal :=
  .next (complete .ok (setCrc (crc16Step s.regs.crc d) s))

/-- CRC_BUF (R185); the sum is computed without wrap-around. -/
def execCrcBuf (s : State) : Host.Outcome State Fault Refusal :=
  if s.cfg.bufSize < s.regs.crcOff.toNat + s.regs.crcLen.toNat then .next (complete .rangeError s)
  else
    .next (complete .ok
      (setCrc (crc16 (fbRange s s.regs.crcOff.toNat s.regs.crcLen.toNat) s.regs.crc) s))

end Sys2Proof.Machine
end

