-- ==== Sys2Proof/Machine/Framer.lean ====
section
/-! DEFINITION. The framer: ENCODE (40_framer.md R140 to R147) and DECODE (R150 to R157), on the frame layout of
30_encoding.md R110. -/

namespace Sys2Proof.Machine

/-! ### ENCODE -/

/-- The 23 header bytes of a frame of `n` bytes, in wire order (R110, R140). -/
def frameHeader (g : Regs) (n : Half) : List Byte :=
  [hiByte g.txPre, loByte g.txPre, hiByte n, loByte n]
    ++ idBytes g.txSidHi g.txSidLo
    ++ idBytes g.txRidHi g.txRidLo
    ++ [hdrGrp g.txHdr, hiByte g.evt, loByte g.evt, hdrFunc g.txHdr, hdrSub g.txHdr, 0x00, 0x00]

/-- N of R140: the whole frame's length, from PLEN (30_encoding.md R111). -/
def frameLength (s : State) : Nat := s.regs.plen.toNat + 25

/-- The header is written at `FB[0 .. 22]`. -/
def writeHeader (s : State) : State :=
  fbWrites 0 (frameHeader s.regs (BitVec.ofNat 16 (frameLength s))) s

/-- The checksum ENCODE appends: over the header just written and the payload (R142). -/
def encodeChecksum (s : State) : Half :=
  crc16 (fbRange (writeHeader s) 0 (23 + s.regs.plen.toNat)) crcInitValue

/-- FB after the header and then the checksum, high byte first (R140). -/
def writeFrame (s : State) : State :=
  fbWrites (23 + s.regs.plen.toNat) [hiByte (encodeChecksum s), loByte (encodeChecksum s)] (writeHeader s)

/-- The registers a successful ENCODE writes (R143, R144). -/
def encodeRegs (s : State) : Regs :=
  { s.regs with
    flen := BitVec.ofNat 16 (frameLength s),
    csumCalc := encodeChecksum s,
    evt := s.regs.evt + 1 }

/-- ENCODE (R140, R141). -/
def execEncode (s : State) : Host.Outcome State Fault Refusal :=
  if s.cfg.maxPayload < s.regs.plen.toNat then .next (complete .payloadTooLong s)
  else .next (complete .ok { writeFrame s with regs := encodeRegs s })

/-! ### DECODE -/

/-- The checksum recomputed over `FB[0 .. FLEN - 3]` (R152). -/
def decodeChecksum (s : State) : Half := crc16 (fbRange s 0 (s.regs.flen.toNat - 2)) crcInitValue

/-- The checksum the frame carries: its last two bytes, big-endian (R152). -/
def carriedChecksum (s : State) : Half := fbHalf s (s.regs.flen.toNat - 2)

/-- The declared `totalLength`, bytes 2 and 3 (R154). -/
def declaredLength (s : State) : Half := fbHalf s 2

/-- Both checksums are written before they are compared (R152). -/
def recordChecksums (s : State) : State :=
  { s with regs := { s.regs with csumCalc := decodeChecksum s, csumRx := carriedChecksum s } }

/-- The registers after a successful DECODE's writes (R155). -/
def publishedRegs (s : State) : Regs :=
  { s.regs with
    rxPre := fbHalf s 0,
    rxLen := declaredLength s,
    rxSidHi := fbHalf s 4,
    rxSidLo := fbWord s 6,
    rxRidHi := fbHalf s 10,
    rxRidLo := fbWord s 12,
    rxHdr := hdrPack (fbByte s 20) (fbByte s 19) (fbByte s 16),
    rxEvt := fbHalf s 17,
    rxRsv := fbHalf s 21,
    plen := BitVec.ofNat 16 (s.regs.flen.toNat - 25) }

/-- A successful DECODE publishes the fields (R155). -/
def publishFields (s : State) : State := { s with regs := publishedRegs s }

/-- DECODE (R150), its checks in the order of 60_exceptions.md R232. -/
def execDecode (s : State) : Host.Outcome State Fault Refusal :=
  if s.regs.flen.toNat < 25 then .next (complete .frameTooShort s)
  else if s.cfg.bufSize < s.regs.flen.toNat then .next (complete .frameTooLong s)
  else if decodeChecksum s ≠ carriedChecksum s then .next (complete .checksumMismatch (recordChecksums s))
  else if declaredLength s ≠ s.regs.flen then .next (complete .lengthMismatch (recordChecksums s))
  else .next (complete .ok (publishFields (recordChecksums s)))

end Sys2Proof.Machine
end

