-- ==== Sys2Proof/Machine/Engine.lean ====
section
/-! DEFINITION. The engine agent (10_state.md R20, R45; 20_memory.md R85). -/

namespace Sys2Proof.Machine

/-- The engine carries out the pending command in one step; it decodes the word then (30_encoding.md R104). With no
command pending there is no engine step (R20), and nothing changes. -/
def engineStep (s : State) : Host.Outcome State Fault Refusal :=
  match s.pend with
  | none => .next s
  | some w =>
    match decodeCmd w with
    | .ok i => exec i s
    | .error _ => .next (completeIllegal s)

end Sys2Proof.Machine
end

