-- ==== Sys2Proof/Machine/Bus.lean ====
section
/-! DEFINITION. The bus slave port: MemRead and MemWrite of 20_memory.md R77, with n = 4 and n = 1. The response goes to
the host. -/

namespace Sys2Proof.Machine

/-- `legal(addr, 4)` (R77). -/
def legal4 (addr : Half) : Bool := decide (addr.toNat % 4 = 0) && decide (addr.toNat ≤ 0x0064)

/-- `legal(addr, 1)` (R77). -/
def legal1 (c : Config) (addr : Half) : Bool :=
  decide (0x8000 ≤ addr.toNat) && decide (addr.toNat < 0x8000 + c.bufSize)

/-- The FB index of an offset of the frame buffer region (R70). -/
def fbIndex (addr : Half) : Nat := addr.toNat - 0x8000

/-- The bus answers the host. -/
def respond (r : Response) (s : State) : State := { s with host := { s.host with resp := some r } }

/-- The value a legal read of a register returns: CTRL and STATUS read true at all times, any other register is a free
value while BUSY = 1 (70_reset_and_hazards.md R271, R275, U4). CMD is one of them, though R77 tests for it first and
returns 0; with BUSY = 0 it reads 0 (R26). DEDUCED, safe: log entry 7. -/
def readRegValue (s : State) (r : RegName) : Word :=
  match r with
  | .ctrl | .status => regValue s r
  | _ => if busy s then Config.freeWord s.draws else regValue s r

/-- The response of `MemRead(addr, 4)` (R77, R79). -/
def read4Response (addr : Half) (s : State) : Response :=
  if legal4 addr then
    match regAt addr with
    | some r => .readOk (readRegValue s r)
    | none => .readError addr (Config.freeWord s.draws)
  else .readError addr (Config.freeWord s.draws)

/-- The response of `MemRead(addr, 1)` (R77, R79). -/
def read1Response (addr : Half) (s : State) : Response :=
  if legal1 s.cfg addr then
    .readOk ((if busy s then Config.freeByte s.draws else fbByte s (fbIndex addr)).setWidth 32)
  else .readError addr ((Config.freeByte s.draws).setWidth 32)

/-- A STATUS read that returns BUSY = 0 is the host's synchronisation (20_memory.md R86, R279). -/
def noteStatusRead (addr : Half) (s : State) : State :=
  { s with host := { s.host with
      idleSeen := s.host.idleSeen || (regAt addr == some .status && !busy s) } }

/-- One `draw()` is used up by every read, whether its value was needed or not (DESIGN CHOICE, safe: log entry 2). -/
def nextDraw (s : State) : State := { s with draws := s.draws + 1 }

/-- `MemRead(addr, 4)`: no read changes any state of the block (R78). -/
def memRead4 (addr : Half) (s : State) : State :=
  respond (read4Response addr s) (noteStatusRead addr (nextDraw s))

/-- `MemRead(addr, 1)`. -/
def memRead1 (addr : Half) (s : State) : State := respond (read1Response addr s) (nextDraw s)

/-- A write of CTRL (10_state.md R24): SRST = 1 is the soft reset, and IE of that value is not kept; else IE. -/
def writeCtrl (v : Word) (s : State) : State :=
  if v.getLsbD 1 then softReset s else { s with regs := { s.regs with ie := v.getLsbD 0 } }

/-- The effect of a legal register write (R77). -/
def writeReg (r : RegName) (v : Word) (s : State) : State :=
  match r with
  | .cmd => writeCmd v s
  | .status => { s with regs := clearStatus v s.regs }
  | .ctrl => writeCtrl v s
  | _ => { s with regs := storeReg r v s.regs }

/-- `MemWrite(addr, 4, v)` (R77): a bus error changes nothing (R79); an input register may not be written while
BUSY = 1 (R270). -/
def memWrite4 (addr : Half) (v : Word) (s : State) : Host.Outcome State Fault Refusal :=
  if legal4 addr then
    match regAt addr with
    | some r =>
      if regIsInput r && busy s then .fault (.hazardWriteWhileBusy addr)
      else .next (respond .writeOk (writeReg r v s))
    | none => .next (respond (.writeError addr) s)
  else .next (respond (.writeError addr) s)

/-- `MemWrite(addr, 1, v)` (R77). -/
def memWrite1 (addr : Half) (v : Byte) (s : State) : Host.Outcome State Fault Refusal :=
  if legal1 s.cfg addr then
    if busy s then .fault (.hazardWriteWhileBusy addr)
    else .next (respond .writeOk (fbWrite (fbIndex addr) v s))
  else .next (respond (.writeError addr) s)

end Sys2Proof.Machine
end

