-- ==== Sys2Proof/Machine/HostAgent.lean ====
section
/-! DEFINITION. The host agent: it performs the lines of its program one at a time (30_encoding.md R120, 20_memory.md R84). -/

namespace Sys2Proof.Machine

/-- A host variable; one that no line has assigned is a free value (DESIGN CHOICE, safe: log entry 8). -/
def hostVar (s : State) (x : Nat) : Word := (cellGet s.host.vars x).getD (Config.hostVarInit x)

/-- The data the last bus response carried; 0 where there is none (DESIGN CHOICE, safe: log entry 13). -/
def respData (s : State) : Word :=
  match s.host.resp with
  | some (.readOk v) => v
  | some (.readError _ v) => v
  | some .writeOk | some (.writeError _) | none => 0

/-- `x <- v`. -/
def setHostVar (x : Nat) (v : Word) (s : State) : State :=
  { s with host := { s.host with vars := cellPut s.host.vars x v } }

/-- The host goes on at line `n`. -/
def hostGoto (n : Nat) (s : State) : State := { s with host := { s.host with pc := n } }

/-- The host goes on at its next line. -/
def hostAdvance (s : State) : State := hostGoto (s.host.pc + 1) s

/-- After a write: the next line, or the fault of the write. -/
def advanceOutcome : Host.Outcome State Fault Refusal → Host.Outcome State Fault Refusal
  | .next s => .next (hostAdvance s)
  | .fault r => .fault r
  | .refused r => .refused r

/-- One line (R120). A read's data goes into the host variable, the free value of a bus error too (R79); after a bus
error the host goes on (U18; DESIGN CHOICE, unsafe for that host: log entry 9). -/
def execLine (line : Line) (s : State) : Host.Outcome State Fault Refusal :=
  match line with
  | .read4 addr x => .next (hostAdvance (setHostVar x (respData (memRead4 addr s)) (memRead4 addr s)))
  | .read1 addr x => .next (hostAdvance (setHostVar x (respData (memRead1 addr s)) (memRead1 addr s)))
  | .write4 addr v => advanceOutcome (memWrite4 addr v s)
  | .write1 addr v => advanceOutcome (memWrite1 addr v s)
  | .bnz x k target => .next (if (hostVar s x).getLsbD k.val then hostGoto target s else hostAdvance s)

/-- The host performs its next line; when there is none it has nothing to do, and nothing changes. -/
def hostStep (s : State) : Host.Outcome State Fault Refusal :=
  match s.host.prog[s.host.pc]? with
  | some line => execLine line s
  | none => .next s

/-- The host program has ended (70_reset_and_hazards.md R279): its last line is done, and a STATUS read has returned
BUSY = 0 after the last accepted CMD write. -/
def State.ended (s : State) : Bool := decide (s.host.prog.length ≤ s.host.pc) && s.host.idleSeen

/-- The state with a host program to be performed from its first line. -/
def State.withProgram (s : State) (prog : List Line) : State :=
  { s with host := { s.host with prog := prog, pc := 0 } }

end Sys2Proof.Machine
end

