-- ==== Sys2Proof/Machine/Schedule.lean ====
section
/-! DEFINITION. Whose move the next step is (10_state.md R20, 20_memory.md R85, 60_exceptions.md R233,
70_reset_and_hazards.md R278). DESIGN CHOICE, safe for the order of the two agents: log entries 4 and 16. -/

namespace Sys2Proof.Machine

/-- The agent that moves next: the listed one; with none listed the engine, when a command has been pending for its
free delay, and the host before that and whenever no command is pending. -/
def nextTurn (s : State) : Turn :=
  match s.turns with
  | turn :: _ => turn
  | [] => if busy s && decide (Config.engineDelay s.issued ≤ s.waited) then .engine else .host

/-- A move is made: a listed turn is used up, and one more move has passed since the last accepted CMD write. -/
def takeTurn (s : State) : State := { s with turns := s.turns.tail, waited := s.waited + 1 }

end Sys2Proof.Machine
end

