-- ==== Sys2Proof/Machine/Step.lean ====
section
/-! DEFINITION. One step of the whole system: one agent moves (10_state.md R20, 20_memory.md R82, R85). -/

namespace Sys2Proof.Machine

/-- The agent whose move it is moves; a pulse of the reset pin is a move of its own (log entry 10). -/
def step (s : State) : Host.Outcome State Fault Refusal :=
  match nextTurn s with
  | .host => hostStep (takeTurn s)
  | .engine => engineStep (takeTurn s)
  | .powerOnReset => .next (powerOnReset (takeTurn s))

/-- `s` with the word accepted as by a CMD write (10_state.md R26) and the engine's turn next. The block fetches
nothing (R21, R89): this stands for the host's CMD write (DESIGN CHOICE, safe: log entry 5). -/
def State.withFetchWord (s : State) (nbits w : Nat) : State :=
  { acceptCmd (BitVec.ofNat 32 (w % 2 ^ nbits)) s with turns := .engine :: s.turns }

end Sys2Proof.Machine
end

