-- ==== Sys2Proof/Machine/Asm.lean ====
section
/-! DEFINITION. The host assembly of 30_encoding.md: the basic lines of R120 with labels, and the pseudo-instructions of
R121 with their expansions. -/

namespace Sys2Proof.Machine

/-- Which identifier `ldid` loads (R121). -/
inductive IdReg where
  | sid
  | rid
deriving DecidableEq, Repr

/-- A source line (R120, R121). FB+i is named by its index, a natural number (00_scope.md R10); a host variable and a
label by a number (DESIGN CHOICE, safe: log entry 21). -/
inductive Asm where
  | label (l : Nat)
  | wr (r : RegName) (v : Word)
  | rd (r : RegName) (x : Nat)
  | wrb (i : Nat) (v : Byte)
  | rdb (i : Nat) (x : Nat)
  | bnz (x : Nat) (k : Fin 32) (l : Nat)
  | cmd (i : Instr)
  | wait
  | run (i : Instr)
  | clrdone
  | clrovr
  | srst
  | wrbytes (i : Nat) (bytes : List Byte)
  | ldid (id : IdReg) (b0 b1 b2 b3 b4 b5 : Byte)
  | ldhdr (grp func sub : Byte)
deriving DecidableEq, Repr

/-- The host variable `s` that `wait` reads STATUS into (R121): number 0 (DESIGN CHOICE, safe: log entry 21). -/
def waitVar : Nat := 0

/-- The offset of `FB+i`, `0x8000 + i` (R120), computed without wrap-around (00_scope.md R10). Past FB+32767 there is no
such 16-bit offset (20_memory.md R70), and the one-byte transaction is a bus error: the model issues it at 0x0000, where
every one-byte transaction is one (R75). DESIGN CHOICE, safe for the block: log entry 19. -/
def fbOffset (i : Nat) : Half := if i < 0x8000 then BitVec.ofNat 16 (0x8000 + i) else 0x0000

/-- `wr NAME, v`. -/
def lineWr (r : RegName) (v : Word) : Line := .write4 (regOffset r) v

/-- `cmd X` (R121): the word of R101, with the operand of CRC_BYTE at bit 8. -/
def lineCmd (i : Instr) : Line := lineWr .cmd (encodeCmd i)

/-- `wait` with its label at line `here` (R121): read STATUS until BUSY = 0. -/
def linesWait (here : Nat) : List Line := [.read4 (regOffset .status) waitVar, .bnz waitVar 0 here]

/-- `wrbytes FB+i, b0 b1 ..` (R121): one `wrb` a byte, the index rising without wrap-around (00_scope.md R10), so that a
byte past FB+32767 gets a bus error (DESIGN CHOICE, safe for the block: log entry 19). -/
def linesWrbytes : Nat → List Byte → List Line
  | _, [] => []
  | i, b :: rest => .write1 (fbOffset i) b :: linesWrbytes (i + 1) rest

/-- `ldid` (R121). -/
def linesLdid (hi lo : RegName) (b0 b1 b2 b3 b4 b5 : Byte) : List Line :=
  [lineWr hi ((be16 b0 b1).setWidth 32), lineWr lo (be32 b2 b3 b4 b5)]

/-- How many lines a source line expands to. -/
def asmSize : Asm → Nat
  | .label _ => 0
  | .wr .. | .rd .. | .wrb .. | .rdb .. | .bnz .. | .cmd _ => 1
  | .wait => 2
  | .run _ => 3
  | .clrdone | .clrovr | .srst => 1
  | .wrbytes _ bytes => bytes.length
  | .ldid .. => 2
  | .ldhdr .. => 1

/-- Where each label stands, in source order: it names the next line (R120), and at the end of a source the end of the
program (DESIGN CHOICE, safe: log entry 20). -/
def asmLabels : Nat → List Asm → List (Nat × Nat)
  | _, [] => []
  | here, .label l :: rest => (l, here) :: asmLabels here rest
  | here, item :: rest => asmLabels (here + asmSize item) rest

/-- The lines of one source line at line `here`. R120 is silent on a branch to a label that stands nowhere, or at two
places: the first has no lines (`none`), so the source is rejected, and the second goes to the first place. DESIGN
CHOICE, unsafe for a source that repeats a label: log entry 20. -/
def asmExpand (labels : List (Nat × Nat)) (here : Nat) : Asm → Option (List Line)
  | .label _ => some []
  | .wr r v => some [lineWr r v]
  | .rd r x => some [.read4 (regOffset r) x]
  | .wrb i v => some [.write1 (fbOffset i) v]
  | .rdb i x => some [.read1 (fbOffset i) x]
  | .bnz x k l => (cellGet labels l).map (fun target => [.bnz x k target])
  | .cmd i => some [lineCmd i]
  | .wait => some (linesWait here)
  | .run i => some (lineCmd i :: linesWait (here + 1))
  | .clrdone => some [lineWr .status 0x00000002]
  | .clrovr => some [lineWr .status 0x00000100]
  | .srst => some [lineWr .ctrl 0x00000002]
  | .wrbytes i bytes => some (linesWrbytes i bytes)
  | .ldid .sid b0 b1 b2 b3 b4 b5 => some (linesLdid .txSidHi .txSidLo b0 b1 b2 b3 b4 b5)
  | .ldid .rid b0 b1 b2 b3 b4 b5 => some (linesLdid .txRidHi .txRidLo b0 b1 b2 b3 b4 b5)
  | .ldhdr grp func sub => some [lineWr .txHdr ((hdrPack sub func grp).setWidth 32)]

/-- The lines of a whole source from line `here` on. -/
def asmLines (labels : List (Nat × Nat)) : Nat → List Asm → Option (List Line)
  | _, [] => some []
  | here, item :: rest =>
    match asmExpand labels here item, asmLines labels (here + asmSize item) rest with
    | some now, some later => some (now ++ later)
    | _, _ => none

/-- A source to a host program (R120, R121). -/
def assemble (source : List Asm) : Option (List Line) := asmLines (asmLabels 0 source) 0 source

end Sys2Proof.Machine
end

