-- ==== Sys2Proof/Safety.lean ====
section
/-! DEFINITION. What counts as a safe state and a safe run, in the terms the statements use. -/

namespace Sys2Proof.Machine

/-- The two states agree on everything that is the block's: configuration, registers, PEND and FB with its power-on
contents (10_state.md R22, R42, R45). -/
abbrev SameBlock (s t : State) : Prop :=
  t.cfg = s.cfg ∧ t.regs = s.regs ∧ t.pend = s.pend ∧ t.fb = s.fb ∧ t.epoch = s.epoch

/-- What `complete(code)` leaves (60_exceptions.md R222): BUSY = 0 with no command pending, DONE = 1, ERR = code, and OVR
and CTRL as they were. -/
structure Completed (code : ErrCode) (s t : State) : Prop where
  notPending : t.pend = none
  done : t.regs.done = true
  err : t.regs.err = errValue code
  ovr : t.regs.ovr = s.regs.ovr
  ie : t.regs.ie = s.regs.ie

/-- Every register reads as before, but for the ones named. -/
def RegsKept (named : List RegName) (s t : State) : Prop := ∀ r, r ∉ named → regValue t r = regValue s r

/-- Every FB byte the predicate picks reads as before. -/
def FbKept (kept : Nat → Prop) (s t : State) : Prop := ∀ i, kept i → fbByte t i = fbByte s i

/-- What no command touches: the parameter, the host agent, the counts of resets and of draws, and whose move comes next. -/
structure OthersKept (s t : State) : Prop where
  cfg : t.cfg = s.cfg
  host : t.host = s.host
  epoch : t.epoch = s.epoch
  draws : t.draws = s.draws
  turns : t.turns = s.turns
  issued : t.issued = s.issued
  waited : t.waited = s.waited

/-- The receive registers, which only a successful DECODE and a reset write (10_state.md R46). -/
def rxRegs : List RegName := [.rxPre, .rxLen, .rxSidHi, .rxSidLo, .rxRidHi, .rxRidLo, .rxHdr, .rxEvt, .rxRsv]

/-- The FB indexes an ENCODE writes (40_framer.md R140): the header and the two checksum bytes. -/
def EncodeOutput (s : State) (i : Nat) : Prop :=
  i < 23 ∨ i = 23 + s.regs.plen.toNat ∨ i = 24 + s.regs.plen.toNat

/-- The state with CRC_OFF and CRC_LEN set, as by two host writes with BUSY = 0 (10_state.md R31). -/
def withCrcRange (o n : Half) (s : State) : State := { s with regs := { s.regs with crcOff := o, crcLen := n } }

/-- The host's next line, when the step about to be taken is the host's. -/
def hostMoves (s : State) : Option Line :=
  match nextTurn s with
  | .host => s.host.prog[s.host.pc]?
  | .engine | .powerOnReset => none

/-- The command the engine carries out, when the step about to be taken is the engine's. -/
def engineMoves (s : State) : Option Instr :=
  match nextTurn s, s.pend with
  | .engine, some w => (decodeCmd w).toOption
  | _, _ => none

/-- The step about to be taken is a pulse of the reset pin. -/
def resetMoves (s : State) : Bool := nextTurn s == .powerOnReset

/-- What every reachable state keeps: the parameter is legal (R6); FB and the host's variables are in canonical form
and FB has no byte at or above BUF_SIZE (R42); while a command is pending DONE and ERR are 0 (R25, R26); ERR never
holds a reserved code (R220); and once the host has seen BUSY = 0 no command is pending (R86, R279). -/
structure State.Inv (s : State) : Prop where
  cfgLegal : s.cfg.legal = true
  fbWf : Memory.wf s.cfg.bufSize s.fb
  varsWf : cellsWf s.host.vars
  busyClean : busy s = true → s.regs.done = false ∧ s.regs.err = 0
  errNamed : s.regs.err.toNat ≤ 7
  idleSeenIdle : s.host.idleSeen = true → s.pend = none

/-- A run is valid while no fault is recorded (70_reset_and_hazards.md R270, R279): `n` steps from `s` end in `t`. -/
def ValidRun (n : Nat) (s t : State) : Prop := Sys2Proof.core.run n s = .next t

end Sys2Proof.Machine
end

