-- ==== Sys2Proof/Certificates/Slice0/Obligations.lean ====
section
/-! DEFINITION. The statements for the provers, each from the numbered rules its docstring cites. -/

open Sys2Proof Sys2Proof.Machine

/-! ### Encoding -/

/-- R101, R105, R201: words written out from the opcode map, and the spec's own examples of illegal words. -/
def Obligations.OpcodeMapWordsDecode : Prop :=
  decodeCmd 0x00000000 = .ok .nop ∧ decodeCmd 0x00000001 = .ok .encode ∧ decodeCmd 0x00000002 = .ok .decode ∧
  decodeCmd 0x00000010 = .ok .crcInit ∧ decodeCmd 0x00003111 = .ok (.crcByte 0x31) ∧
  decodeCmd 0x0000FF11 = .ok (.crcByte 0xFF) ∧ decodeCmd 0x00000012 = .ok .crcBuf ∧
  decodeCmd 0x00000003 = .error (.unknownOpcode 0x03) ∧ decodeCmd 0x000000FF = .error (.unknownOpcode 0xFF) ∧
  decodeCmd 0x00000013 = .error (.unknownOpcode 0x13) ∧ decodeCmd 0x00000101 = .error (.operandBits 0x01) ∧
  decodeCmd 0x00010011 = .error (.operandBits 0x11) ∧ decodeCmd 0x80000001 = .error (.operandBits 0x01)

/-- R100 to R105: encoding and decoding agree both ways, so the legal words are exactly the encodings. -/
def Obligations.DecodeAndEncodeAgree : Prop :=
  (∀ i : Instr, decodeCmd (encodeCmd i) = .ok i) ∧ (∀ (w : Word) (i : Instr), decodeCmd w = .ok i → encodeCmd i = w)

/-- R101: "At most one row matches any word." -/
def Obligations.AtMostOneRowSelectsAWord : Prop :=
  ∀ (w : Word) (r₁ r₂ : OpcodeRow), r₁ ∈ opcodeMap → r₂ ∈ opcodeMap → r₁.selects w = true → r₂.selects w = true → r₁ = r₂

/-- R103: with a legal OP, a format C0 word needs bits [31:8] zero and a format C8 word bits [31:16]; any other word is
illegal, and the engine does not treat it as the command its OP names. -/
def Obligations.OperandBitsMustBeZero : Prop :=
  ∀ w : Word,
    ((cmdOp w ∈ [0x00, 0x01, 0x02, 0x10, 0x12] ∧ w.extractLsb' 8 24 ≠ 0) ∨
      (cmdOp w = 0x11 ∧ w.extractLsb' 16 16 ≠ 0)) →
    decodeCmd w = .error (.operandBits (cmdOp w)) ∧
      ∀ s : State, s.pend = some w → engineStep s = .next (completeIllegal s)

/-! ### Whose step it is -/

/-- R104, R85: when the pending word decodes to a command and the engine moves, the step is that command's meaning,
after the move is counted. Whose move it is, a listed turn or the free delay of the command, is the model's own (log
entries 4 and 16). -/
def Obligations.StepRunsThePendingCommand : Prop :=
  ∀ (s : State) (w : Word) (i : Instr), s.pend = some w → decodeCmd w = .ok i →
    i.wf = true ∧
    (∀ rest, s.turns = .engine :: rest → step s = exec i { s with turns := rest, waited := s.waited + 1 }) ∧
    (s.turns = [] → Config.engineDelay s.issued ≤ s.waited → step s = exec i { s with waited := s.waited + 1 })

/-- R20, R84, R85, R260: the other steps. A host turn performs the host's next line, an engine turn with no command
pending changes nothing else, a reset pulse gives the reset registers. With no turn listed the host moves, but for the
one engine step of a command that has been pending for its free delay. Turns and delays are the model's own (log entries
4 and 16). -/
def Obligations.TurnsDecideWhoMoves : Prop :=
  ∀ (s : State) (rest : List Turn),
    (s.turns = .host :: rest → step s = hostStep { s with turns := rest, waited := s.waited + 1 }) ∧
    (s.turns = .engine :: rest → s.pend = none → step s = .next { s with turns := rest, waited := s.waited + 1 }) ∧
    (s.turns = .powerOnReset :: rest →
      step s = .next (powerOnReset { s with turns := rest, waited := s.waited + 1 })) ∧
    (s.turns = [] → step s =
      if s.pend ≠ none ∧ Config.engineDelay s.issued ≤ s.waited then engineStep { s with waited := s.waited + 1 }
      else hostStep { s with waited := s.waited + 1 })

/-- R201, R105, R223: an illegal word completes with ILLEGAL_CMD at the engine's step and changes no register but STATUS
and no FB byte. With an engine turn listed that step is the machine's (turns are the model's own, log entry 4). -/
def Obligations.IllegalWordOnlyReportsIllegalCmd : Prop :=
  ∀ (s : State) (w : Word), s.pend = some w → (∀ i : Instr, w ≠ encodeCmd i) →
    ∃ t, engineStep s = .next t ∧ Completed .illegalCmd s t ∧ RegsKept [.status] s t ∧ FbKept (fun _ => True) s t ∧
      OthersKept s t ∧
      ∀ rest, s.turns = .engine :: rest → step s = .next { t with turns := rest, waited := s.waited + 1 }

/-! ### Completion -/

/-- R222, R220: every command answers a next state in every state: it completes, with a code that rule R220 lists
for it, and touches neither OVR nor CTRL nor anything outside the block. -/
def Obligations.EveryCommandCompletes : Prop :=
  ∀ (i : Instr) (s : State), ∃ t code, exec i s = .next t ∧ Completed code s t ∧ OthersKept s t ∧
    (code = .ok ∨ (i = .encode ∧ code = .payloadTooLong) ∨ (i = .crcBuf ∧ code = .rangeError) ∨
      (i = .decode ∧ code ∈ [.frameTooShort, .checksumMismatch, .lengthMismatch, .frameTooLong]))

/-- R223: a command that completes with a nonzero code has written nothing but STATUS, and for a DECODE that computed
the checksums CSUM_CALC and CSUM_RX; FB is as it was. -/
def Obligations.FailedCommandsWriteNothingElse : Prop :=
  ∀ (i : Instr) (s t : State), exec i s = .next t → t.regs.err ≠ errValue .ok →
    FbKept (fun _ => True) s t ∧
    (i ≠ .decode → RegsKept [.status] s t) ∧
    (i = .decode → RegsKept [.status, .csumCalc, .csumRx] s t) ∧
    (t.regs.err = errValue .frameTooShort ∨ t.regs.err = errValue .frameTooLong → RegsKept [.status] s t)

/-! ### NOP and the CRC commands -/

/-- R200: NOP completes with OK and changes no register other than STATUS, and no FB byte. -/
def Obligations.NopOnlyCompletes : Prop :=
  ∀ s : State, ∃ t, exec .nop s = .next t ∧ Completed .ok s t ∧ RegsKept [.status] s t ∧
    FbKept (fun _ => True) s t ∧ OthersKept s t

/-- R183: CRC_INIT sets CRC to 0xFFFF, completes with OK, and changes nothing else. -/
def Obligations.CrcInitSetsInitialValue : Prop :=
  ∀ s : State, ∃ t, exec .crcInit s = .next t ∧ Completed .ok s t ∧ regValue t .crc = 0x0000FFFF ∧
    RegsKept [.status, .crc] s t ∧ FbKept (fun _ => True) s t ∧ OthersKept s t

/-- R184, R102: CRC_BYTE adds the byte in bits [15:8] of its word to the running CRC, and changes nothing else. -/
def Obligations.CrcByteAddsItsOperand : Prop :=
  ∀ (s : State) (d : Byte), ∃ t, exec (.crcByte d) s = .next t ∧ Completed .ok s t ∧
    regValue t .crc = (crc16Step s.regs.crc ((encodeCmd (.crcByte d)).extractLsb' 8 8)).setWidth 32 ∧
    RegsKept [.status, .crc] s t ∧ FbKept (fun _ => True) s t ∧ OthersKept s t

/-- R185: CRC_BUF adds `FB[o .. o + n - 1]` to the running CRC when `o + n ≤ BUF_SIZE`, the sum not wrapping, and
reports RANGE_ERROR with CRC unchanged when not; it never writes FB. -/
def Obligations.CrcBufAddsRangeOrReportsRangeError : Prop :=
  ∀ s : State,
    (s.regs.crcOff.toNat + s.regs.crcLen.toNat ≤ s.cfg.bufSize →
      ∃ t, exec .crcBuf s = .next t ∧ Completed .ok s t ∧
        t.regs.crc =
          ((List.range s.regs.crcLen.toNat).map (fun k => fbByte s (s.regs.crcOff.toNat + k))).foldl crc16Step
            s.regs.crc ∧
        RegsKept [.status, .crc] s t ∧ FbKept (fun _ => True) s t ∧ OthersKept s t) ∧
    (s.cfg.bufSize < s.regs.crcOff.toNat + s.regs.crcLen.toNat →
      ∃ t, exec .crcBuf s = .next t ∧ Completed .rangeError s t ∧ RegsKept [.status] s t ∧
        FbKept (fun _ => True) s t ∧ OthersKept s t)

/-- R182: the step function is linear over GF(2). -/
def Obligations.CrcStepIsLinear : Prop :=
  ∀ (c₁ c₂ : Half) (b₁ b₂ : Byte),
    crc16Step (c₁ ^^^ c₂) (b₁ ^^^ b₂) = crc16Step c₁ b₁ ^^^ crc16Step c₂ b₂

/-- R186: the CRC chains over byte strings, and so a CRC_BUF over `n + m` bytes leaves what two CRC_BUFs over its parts
leave. -/
def Obligations.CrcChains : Prop :=
  (∀ (xs ys : List Byte) (c : Half), crc16 (xs ++ ys) c = crc16 ys (crc16 xs c)) ∧
  ∀ (s t : State) (o n m : Half),
    o.toNat + n.toNat + m.toNat ≤ s.cfg.bufSize → o.toNat + n.toNat + m.toNat < 2 ^ 16 →
    exec .crcBuf (withCrcRange o n s) = .next t →
    ∃ u v, exec .crcBuf (withCrcRange (o + n) m t) = .next u ∧
      exec .crcBuf (withCrcRange o (n + m) s) = .next v ∧
      u.regs.crc = v.regs.crc

/-! ### ENCODE -/

/-- R141: ENCODE's only check. A payload over MAX_PAYLOAD completes with PAYLOAD_TOO_LONG and changes nothing else; any
other completes with OK. -/
def Obligations.EncodeChecksOnlyPayloadLength : Prop :=
  ∀ s : State,
    (s.cfg.bufSize - 25 < s.regs.plen.toNat → ∃ t, exec .encode s = .next t ∧ Completed .payloadTooLong s t ∧
      RegsKept [.status] s t ∧ FbKept (fun _ => True) s t ∧ OthersKept s t) ∧
    (s.regs.plen.toNat ≤ s.cfg.bufSize - 25 → ∃ t, exec .encode s = .next t ∧ Completed .ok s t)

/-- R110, R33, R34, R140: the header a successful ENCODE leaves in `FB[0 .. 22]`, each field at its offset and width,
big-endian. -/
def Obligations.EncodeWritesHeaderFields : Prop :=
  ∀ s : State, s.cfg.legal = true → s.regs.plen.toNat ≤ s.cfg.bufSize - 25 →
    ∃ t, exec .encode s = .next t ∧ Completed .ok s t ∧
      fbHalf t 0 = s.regs.txPre ∧
      (fbHalf t 2).toNat = s.regs.plen.toNat + 25 ∧
      (∀ k, k < 6 → fbByte t (4 + k) = (s.regs.txSidHi ++ s.regs.txSidLo).extractLsb' (40 - 8 * k) 8) ∧
      (∀ k, k < 6 → fbByte t (10 + k) = (s.regs.txRidHi ++ s.regs.txRidLo).extractLsb' (40 - 8 * k) 8) ∧
      fbByte t 16 = s.regs.txHdr.extractLsb' 0 8 ∧
      fbHalf t 17 = s.regs.evt ∧
      fbByte t 19 = s.regs.txHdr.extractLsb' 8 8 ∧
      fbByte t 20 = s.regs.txHdr.extractLsb' 16 8 ∧
      fbByte t 21 = 0x00 ∧ fbByte t 22 = 0x00

/-- R142: the checksum covers the 23 header bytes and the payload as they stand in FB, starts at 0xFFFF, is appended
high byte first and shown in CSUM_CALC; the CRC register is neither read nor changed. -/
def Obligations.EncodeAppendsTheFrameChecksum : Prop :=
  ∀ s : State, s.cfg.legal = true → s.regs.plen.toNat ≤ s.cfg.bufSize - 25 →
    ∃ t, exec .encode s = .next t ∧ Completed .ok s t ∧
      t.regs.csumCalc = crc16 (fbRange t 0 (23 + s.regs.plen.toNat)) 0xFFFF ∧
      fbByte t (23 + s.regs.plen.toNat) = t.regs.csumCalc.extractLsb' 8 8 ∧
      fbByte t (24 + s.regs.plen.toNat) = t.regs.csumCalc.extractLsb' 0 8 ∧
      t.regs.crc = s.regs.crc ∧
      ∀ c : Half, exec .encode (setCrc c s) = .next (setCrc c t)

/-- R143: FLEN becomes P + 25, which is also the frame's `totalLength`. -/
def Obligations.EncodeSetsFrameLength : Prop :=
  ∀ s : State, s.cfg.legal = true → s.regs.plen.toNat ≤ s.cfg.bufSize - 25 →
    ∃ t, exec .encode s = .next t ∧ Completed .ok s t ∧ t.regs.flen.toNat = s.regs.plen.toNat + 25 ∧
      fbHalf t 2 = t.regs.flen

/-- R144: a successful ENCODE carries the current EVT in bytes 17 and 18 and then adds one to EVT modulo 2^16; a failed
one does not change EVT. -/
def Obligations.EncodeStampsAndAdvancesEventId : Prop :=
  ∀ s : State, s.cfg.legal = true → ∃ t, exec .encode s = .next t ∧
    (s.regs.plen.toNat ≤ s.cfg.bufSize - 25 →
      t.regs.err = errValue .ok ∧ fbHalf t 17 = s.regs.evt ∧ t.regs.evt.toNat = (s.regs.evt.toNat + 1) % 2 ^ 16) ∧
    (s.cfg.bufSize - 25 < s.regs.plen.toNat →
      t.regs.err = errValue .payloadTooLong ∧ t.regs.evt = s.regs.evt)

/-- R145, R46: the frame of ENCODE. Of the registers only STATUS, FLEN, CSUM_CALC and EVT may change; of FB only the
header bytes and the two bytes after the payload: the payload and every byte from 25 + P on read as before. -/
def Obligations.EncodeFrame : Prop :=
  ∀ s : State, s.regs.plen.toNat ≤ s.cfg.bufSize - 25 →
    ∃ t, exec .encode s = .next t ∧ Completed .ok s t ∧
      RegsKept [.status, .flen, .csumCalc, .evt] s t ∧
      FbKept (fun i => 23 ≤ i ∧ i < 23 + s.regs.plen.toNat ∨ 25 + s.regs.plen.toNat ≤ i) s t ∧ OthersKept s t

/-! ### DECODE -/

/-- R151: outside the length range DECODE reports FRAME_TOO_SHORT or FRAME_TOO_LONG, writes nothing but STATUS, and reads
no FB byte: with any other FB it does the same. -/
def Obligations.DecodeChecksLengthRange : Prop :=
  ∀ (s : State) (code : ErrCode),
    ((s.regs.flen.toNat < 25 ∧ code = .frameTooShort) ∨
      (25 ≤ s.regs.flen.toNat ∧ s.cfg.bufSize < s.regs.flen.toNat ∧ code = .frameTooLong)) →
    ∃ t, exec .decode s = .next t ∧ Completed code s t ∧ RegsKept [.status] s t ∧ FbKept (fun _ => True) s t ∧
      OthersKept s t ∧
      ∀ (fb : List Host.Cell) (epoch : Nat),
        exec .decode { s with fb := fb, epoch := epoch } = .next { t with fb := fb, epoch := epoch }

/-- R152: for a length in range, CSUM_CALC is the CRC recomputed from 0xFFFF over all but the last two bytes and CSUM_RX
the last two bytes big-endian, whatever the outcome; the CRC register is neither read nor changed. -/
def Obligations.DecodeRecordsBothChecksums : Prop :=
  ∀ s : State, 25 ≤ s.regs.flen.toNat → s.regs.flen.toNat ≤ s.cfg.bufSize →
    ∃ t, exec .decode s = .next t ∧
      t.regs.csumCalc = crc16 ((List.range (s.regs.flen.toNat - 2)).map (fbByte s)) 0xFFFF ∧
      t.regs.csumRx = fbByte s (s.regs.flen.toNat - 2) ++ fbByte s (s.regs.flen.toNat - 1) ∧
      t.regs.crc = s.regs.crc ∧
      ∀ c : Half, exec .decode (setCrc c s) = .next (setCrc c t)

/-- R153: when the recomputed and the carried checksum differ, DECODE completes with CHECKSUM_MISMATCH and keeps every
receive register and PLEN. -/
def Obligations.DecodeReportsChecksumMismatch : Prop :=
  ∀ s : State, 25 ≤ s.regs.flen.toNat → s.regs.flen.toNat ≤ s.cfg.bufSize →
    crc16 (fbRange s 0 (s.regs.flen.toNat - 2)) 0xFFFF ≠ fbHalf s (s.regs.flen.toNat - 2) →
    ∃ t, exec .decode s = .next t ∧ Completed .checksumMismatch s t ∧
      RegsKept [.status, .csumCalc, .csumRx] s t ∧ FbKept (fun _ => True) s t ∧ OthersKept s t

/-- R154: when the checksum matches and bytes 2 and 3 differ from FLEN, DECODE completes with LENGTH_MISMATCH, keeps every
receive register and PLEN, and CSUM_CALC and CSUM_RX hold the matching checksums. -/
def Obligations.DecodeReportsLengthMismatch : Prop :=
  ∀ s : State, 25 ≤ s.regs.flen.toNat → s.regs.flen.toNat ≤ s.cfg.bufSize →
    crc16 (fbRange s 0 (s.regs.flen.toNat - 2)) 0xFFFF = fbHalf s (s.regs.flen.toNat - 2) →
    fbByte s 2 ++ fbByte s 3 ≠ s.regs.flen →
    ∃ t, exec .decode s = .next t ∧ Completed .lengthMismatch s t ∧
      t.regs.csumCalc = fbHalf s (s.regs.flen.toNat - 2) ∧ t.regs.csumRx = fbHalf s (s.regs.flen.toNat - 2) ∧
      RegsKept [.status, .csumCalc, .csumRx] s t ∧ FbKept (fun _ => True) s t ∧ OthersKept s t

/-- R155: when both checks pass, every header field is written to its receive register from its place in the frame,
PLEN is FLEN - 25, and the payload is left in place: FB is as it was. -/
def Obligations.DecodePublishesHeaderFields : Prop :=
  ∀ s : State, 25 ≤ s.regs.flen.toNat → s.regs.flen.toNat ≤ s.cfg.bufSize →
    crc16 (fbRange s 0 (s.regs.flen.toNat - 2)) 0xFFFF = fbHalf s (s.regs.flen.toNat - 2) →
    fbByte s 2 ++ fbByte s 3 = s.regs.flen →
    ∃ t, exec .decode s = .next t ∧ Completed .ok s t ∧
      regValue t .rxPre = (fbByte s 0 ++ fbByte s 1).setWidth 32 ∧
      regValue t .rxLen = (fbByte s 2 ++ fbByte s 3).setWidth 32 ∧
      regValue t .rxSidHi = (fbByte s 4 ++ fbByte s 5).setWidth 32 ∧
      regValue t .rxSidLo = fbByte s 6 ++ fbByte s 7 ++ fbByte s 8 ++ fbByte s 9 ∧
      regValue t .rxRidHi = (fbByte s 10 ++ fbByte s 11).setWidth 32 ∧
      regValue t .rxRidLo = fbByte s 12 ++ fbByte s 13 ++ fbByte s 14 ++ fbByte s 15 ∧
      regValue t .rxHdr = (fbByte s 20 ++ fbByte s 19 ++ fbByte s 16).setWidth 32 ∧
      regValue t .rxEvt = (fbByte s 17 ++ fbByte s 18).setWidth 32 ∧
      regValue t .rxRsv = (fbByte s 21 ++ fbByte s 22).setWidth 32 ∧
      (regValue t .plen).toNat = s.regs.flen.toNat - 25 ∧ FbKept (fun _ => True) s t

/-- R156: DECODE writes no FB byte and does not change FLEN, EVT, CRC, CRC_OFF, CRC_LEN or any TX register; of the
other registers it may change STATUS, the two checksums, the receive registers and PLEN. -/
def Obligations.DecodeKeepsItsInputs : Prop :=
  ∀ s : State, ∃ t, exec .decode s = .next t ∧ FbKept (fun _ => True) s t ∧ OthersKept s t ∧
    RegsKept ([.status, .csumCalc, .csumRx, .plen] ++ rxRegs) s t

/-- R157: "Bytes of FB at index FLEN and above are not read": two states that agree on the registers and on the frame's
bytes complete alike. -/
def Obligations.DecodeIgnoresBytesBeyondTheFrame : Prop :=
  ∀ s s' t : State, s'.regs = s.regs → s'.cfg = s.cfg → (∀ i, i < s.regs.flen.toNat → fbByte s' i = fbByte s i) →
    exec .decode s = .next t → ∃ t', exec .decode s' = .next t' ∧ t'.regs = t.regs ∧ t'.pend = t.pend

/-! ### Laws of the framer -/

/-- R158: ENCODE then DECODE with no host write between them gives back every field, the payload and the checksum. -/
def Obligations.RoundTripReproducesEveryField : Prop :=
  ∀ s : State, s.cfg.legal = true → s.regs.plen.toNat ≤ s.cfg.bufSize - 25 →
    ∃ t u, exec .encode s = .next t ∧ exec .decode t = .next u ∧
      t.regs.flen.toNat = s.regs.plen.toNat + 25 ∧ Completed .ok t u ∧
      u.regs.rxPre = s.regs.txPre ∧ u.regs.rxLen.toNat = s.regs.plen.toNat + 25 ∧
      u.regs.rxSidHi = s.regs.txSidHi ∧ u.regs.rxSidLo = s.regs.txSidLo ∧
      u.regs.rxRidHi = s.regs.txRidHi ∧ u.regs.rxRidLo = s.regs.txRidLo ∧
      u.regs.rxHdr = s.regs.txHdr ∧ u.regs.rxEvt = s.regs.evt ∧ u.regs.rxRsv = 0 ∧
      u.regs.plen = s.regs.plen ∧ u.regs.csumRx = u.regs.csumCalc ∧ u.regs.csumCalc = t.regs.csumCalc ∧
      ∀ k, k < s.regs.plen.toNat → fbByte u (23 + k) = fbByte s (23 + k)

/-- R159: of a frame DECODE accepts, inverting any one bit makes DECODE report CHECKSUM_MISMATCH: in the checksum bytes
the carried value differs and the recomputed one does not, before them the recomputed one differs. -/
def Obligations.SingleBitErrorIsDetected : Prop :=
  ∀ (s t : State) (i : Nat) (k : Fin 8), exec .decode s = .next t → t.regs.err = errValue .ok →
    i < s.regs.flen.toNat →
    ∃ u, exec .decode (fbWrite i (fbByte s i ^^^ BitVec.twoPow 8 k.val) s) = .next u ∧
      Completed .checksumMismatch s u ∧
      (i < s.regs.flen.toNat - 2 → u.regs.csumCalc ≠ t.regs.csumCalc) ∧
      (s.regs.flen.toNat - 2 ≤ i → u.regs.csumCalc = t.regs.csumCalc ∧ u.regs.csumRx ≠ t.regs.csumRx)

/-- R160: `n` successful ENCODEs with no change of EVT between them, whatever else happens between them, carry
`e, e+1, ..` modulo 2^16, and strictly rise unless they pass 0xFFFF. -/
def Obligations.EventIdsCountUp : Prop :=
  ∀ (n : Nat) (before after : Nat → State),
    (∀ k, k < n → exec .encode (before k) = .next (after k) ∧ (after k).regs.err = errValue .ok) →
    (∀ k, k + 1 < n → (before (k + 1)).regs.evt = (after k).regs.evt) →
    (∀ k, k < n → (fbHalf (after k) 17).toNat = ((before 0).regs.evt.toNat + k) % 2 ^ 16) ∧
    ((before 0).regs.evt.toNat + n ≤ 2 ^ 16 →
      ∀ j k, j < k → k < n → (fbHalf (after j) 17).toNat < (fbHalf (after k) 17).toNat)

/-- R161: over all FLEN bytes of a frame ENCODE built, checksum included, the CRC from 0xFFFF is 0x0000. -/
def Obligations.EncodedFrameHasZeroResidue : Prop :=
  ∀ s : State, s.cfg.legal = true → s.regs.plen.toNat ≤ s.cfg.bufSize - 25 →
    ∃ t, exec .encode s = .next t ∧ crc16 (fbRange t 0 t.regs.flen.toNat) 0xFFFF = 0x0000

/-- R187: after CRC_INIT, a CRC_BUF over `FB[0 .. FLEN - 3]` of a frame ENCODE built leaves CRC = CSUM_CALC. `u` is any
state that still holds the frame, with the range set up. -/
def Obligations.CrcBufOfEncodedFrameIsItsChecksum : Prop :=
  ∀ s t u : State, s.cfg.legal = true → exec .encode s = .next t → t.regs.err = errValue .ok →
    u.cfg = t.cfg → u.fb = t.fb → u.epoch = t.epoch → u.regs.crcOff = 0 → u.regs.crcLen = t.regs.flen - 2 →
    ∃ v w, exec .crcInit u = .next v ∧ exec .crcBuf v = .next w ∧ w.regs.err = errValue .ok ∧
      w.regs.crc = t.regs.csumCalc

/-! ### Registers and the bus -/

/-- R25: the bits of STATUS as it reads. -/
def Obligations.StatusBitsStandWhereStated : Prop :=
  ∀ (s : State) (k : Nat), (regValue s .status).getLsbD k =
    if k = 0 then busy s else if k = 1 then s.regs.done else if 4 ≤ k ∧ k ≤ 7 then s.regs.err.getLsbD (k - 4)
    else if k = 8 then s.regs.ovr else false

/-- R23, R22: a reserved bit of any register reads 0 (in a register's own value: a read while BUSY = 1 may return a free
value, R271), and a write to it is ignored. -/
def Obligations.ReservedBitsReadZeroAndIgnoreWrites : Prop :=
  ∀ (s : State) (r : RegName) (v : Word),
    regValue s r &&& ~~~ regUsedBits r = 0 ∧
      memWrite4 (regOffset r) v s = memWrite4 (regOffset r) (v &&& regUsedBits r) s

/-- R261, R22: every register's value at reset, no command pending, `irq` low, no FB byte written. -/
def Obligations.ResetValuesAsListed : Prop :=
  (∀ r : RegName, regValue State.reset r =
    if r = .evt then 0x00000001 else if r = .crc then 0x0000FFFF else 0x00000000) ∧
  State.reset.pend = none ∧ State.reset.irq = false ∧ ∀ i, cellGet State.reset.fb i = none

/-- R205, R262, R24: a write of CTRL with SRST = 1 gives every register its reset value whatever is pending, the IE bit
of that value is not kept, PEND is not valid, and DONE and `irq` are 0: the aborted command does not complete. -/
def Obligations.SoftResetRestoresEveryRegister : Prop :=
  ∀ (s : State) (v : Word), v.getLsbD 1 = true →
    ∃ t, memWrite4 0x0000 v s = .next t ∧ (∀ r, regValue t r = regValue State.reset r) ∧ t.pend = none ∧
      t.irq = false ∧ t.cfg = s.cfg ∧ t.epoch = s.epoch

/-- R206, R43: the soft reset keeps FB, but for the output bytes of a pending ENCODE, which hold free values. That they
are free also when PLEN exceeds MAX_PAYLOAD, that bytes outside FB are passed over, that PLEN is taken at the reset, and
how a draw is numbered, are the model's choices (log entries 2, 6 and 14). -/
def Obligations.SoftResetKeepsFrameBytes : Prop :=
  ∀ (s : State) (v : Word), v.getLsbD 1 = true →
    ∃ t, memWrite4 0x0000 v s = .next t ∧
      FbKept (fun i => s.pend = some (encodeCmd .encode) → ¬ EncodeOutput s i) s t ∧
      (s.pend = some (encodeCmd .encode) →
        ∀ i, EncodeOutput s i → i < s.cfg.bufSize → ∃ n, s.draws ≤ n ∧ fbByte t i = Config.freeByte n)

/-- R260, R261, R43: a pulse of the reset pin gives every register its reset value, no pending command, and FB unwritten
with contents that are free values of a new power-on. The pulse as one step, and one free value per byte and power-on,
are the model's choices (log entries 1 and 10). -/
def Obligations.PowerOnResetRestoresTheBlock : Prop :=
  ∀ (s : State) (rest : List Turn), s.turns = .powerOnReset :: rest →
    ∃ t, step s = .next t ∧ (∀ r, regValue t r = regValue State.reset r) ∧ t.pend = none ∧ t.irq = false ∧
      t.epoch = s.epoch + 1 ∧ (∀ i, fbByte t i = Config.powerOnByte t.epoch i) ∧ t.host = s.host ∧ t.cfg = s.cfg

/-- R22, R73, R76, R77: each register stands at the offset rule R22 gives it, and a four-byte access is legal exactly at
the 26 offsets at which a register stands. -/
def Obligations.LegalWordOffsetsAreTheRegisters : Prop :=
  (∀ addr : Half, legal4 addr = true ↔ ∃ r, regAt addr = some r) ∧
  (∀ (addr : Half) (r : RegName), regAt addr = some r ↔ regOffset r = addr) ∧
  regAt 0x0000 = some .ctrl ∧ regAt 0x0004 = some .status ∧ regAt 0x0008 = some .cmd ∧ regAt 0x000C = some .flen ∧
  regAt 0x0010 = some .plen ∧ regAt 0x0014 = some .evt ∧ regAt 0x0018 = some .crc ∧ regAt 0x001C = some .crcOff ∧
  regAt 0x0020 = some .crcLen ∧ regAt 0x0024 = some .txPre ∧ regAt 0x0028 = some .txSidHi ∧
  regAt 0x002C = some .txSidLo ∧ regAt 0x0030 = some .txRidHi ∧ regAt 0x0034 = some .txRidLo ∧
  regAt 0x0038 = some .txHdr ∧ regAt 0x003C = some .csumCalc ∧ regAt 0x0040 = some .csumRx ∧
  regAt 0x0044 = some .rxPre ∧ regAt 0x0048 = some .rxLen ∧ regAt 0x004C = some .rxSidHi ∧
  regAt 0x0050 = some .rxSidLo ∧ regAt 0x0054 = some .rxRidHi ∧ regAt 0x0058 = some .rxRidLo ∧
  regAt 0x005C = some .rxHdr ∧ regAt 0x0060 = some .rxEvt ∧ regAt 0x0064 = some .rxRsv

/-- R44, R202, R77: with BUSY = 0 a write of an input register stores the bits it uses and changes nothing else, and a
read then returns them. -/
def Obligations.InputRegisterWriteReadsBack : Prop :=
  ∀ (s : State) (r : RegName) (v : Word), regIsInput r = true → busy s = false →
    ∃ t, memWrite4 (regOffset r) v s = .next t ∧ read4Response (regOffset r) t = .readOk (v &&& regUsedBits r) ∧
      RegsKept [r] s t ∧ t.pend = s.pend ∧ t.fb = s.fb ∧ t.epoch = s.epoch ∧ t.cfg = s.cfg ∧
      t.host.resp = some .writeOk

/-- R22, R77: a write of a read-only register is ignored, BUSY or not. -/
def Obligations.ReadOnlyRegisterWriteIsIgnored : Prop :=
  ∀ (s : State) (r : RegName) (v : Word), r ∈ [.csumCalc, .csumRx] ++ rxRegs →
    ∃ t, memWrite4 (regOffset r) v s = .next t ∧ SameBlock s t ∧ t.host.resp = some .writeOk

/-- R77, R74, R43: with BUSY = 0 a byte written at an FB offset is read back there, and no other byte and no register
changes. -/
def Obligations.FrameByteWriteReadsBack : Prop :=
  ∀ (s : State) (i : Nat) (v : Byte), i < s.cfg.bufSize → s.cfg.legal = true → busy s = false →
    ∃ t, memWrite1 (BitVec.ofNat 16 (0x8000 + i)) v s = .next t ∧
      read1Response (BitVec.ofNat 16 (0x8000 + i)) t = .readOk (v.setWidth 32) ∧
      FbKept (fun j => j ≠ i) s t ∧ t.regs = s.regs ∧ t.pend = s.pend ∧ t.host.resp = some .writeOk

/-- R79, R76, R226: an access outside rule R77's `legal` is a bus error: the response says so, and nothing of the block
changes, STATUS and `irq` among it; the data of a read is a free value, numbered as log entry 2 says. -/
def Obligations.BusErrorChangesNothing : Prop :=
  ∀ (s : State) (addr : Half) (v : Word) (b : Byte),
    ((addr.toNat % 4 ≠ 0 ∨ 0x0064 < addr.toNat) →
      (∃ t, memWrite4 addr v s = .next t ∧ SameBlock s t ∧ t.host.resp = some (.writeError addr)) ∧
      SameBlock s (memRead4 addr s) ∧
      (memRead4 addr s).host.resp = some (.readError addr (Config.freeWord s.draws))) ∧
    ((addr.toNat < 0x8000 ∨ 0x8000 + s.cfg.bufSize ≤ addr.toNat) →
      (∃ t, memWrite1 addr b s = .next t ∧ SameBlock s t ∧ t.host.resp = some (.writeError addr)) ∧
      SameBlock s (memRead1 addr s) ∧
      (memRead1 addr s).host.resp = some (.readError addr ((Config.freeByte s.draws).setWidth 32)))

/-- R78, R224, R120, R84, R77: the host's lines. The host performs the line it stands at. No read and no host-side branch
changes any state of the block, ERR, DONE and OVR among it, and each answers a next state; a read's data goes into its
variable and into no other. A write line is the write of MemWrite, and then the host stands at its next line. With
BUSY = 0 a read returns the register's value, or the FB byte. That the host goes on at its next line after a bus error,
with the free data of a read in error in its variable, is the model's choice (U18; log entry 9, DESIGN CHOICE). -/
def Obligations.ReadsAndBranchesLeaveTheBlock : Prop :=
  ∀ s : State,
    (∀ line, s.host.prog[s.host.pc]? = some line → hostStep s = execLine line s) ∧
    (∀ (addr : Half) (x : Nat), ∃ t, execLine (.read4 addr x) s = .next t ∧ SameBlock s t ∧
      t.host.prog = s.host.prog ∧ t.host.pc = s.host.pc + 1 ∧ t.host.resp = some (read4Response addr s) ∧
      hostVar t x = respData t ∧ ∀ y, y ≠ x → hostVar t y = hostVar s y) ∧
    (∀ (addr : Half) (x : Nat), ∃ t, execLine (.read1 addr x) s = .next t ∧ SameBlock s t ∧
      t.host.prog = s.host.prog ∧ t.host.pc = s.host.pc + 1 ∧ t.host.resp = some (read1Response addr s) ∧
      hostVar t x = respData t ∧ ∀ y, y ≠ x → hostVar t y = hostVar s y) ∧
    (∀ (x : Nat) (k : Fin 32) (target : Nat), execLine (.bnz x k target) s = .next { s with host := { s.host with
      pc := if (hostVar s x).getLsbD k.val then target else s.host.pc + 1 } }) ∧
    (∀ (addr : Half) (v : Word),
      (∀ t, memWrite4 addr v s = .next t →
        execLine (.write4 addr v) s = .next { t with host := { t.host with pc := s.host.pc + 1 } }) ∧
      ∀ f, memWrite4 addr v s = .fault f → execLine (.write4 addr v) s = .fault f) ∧
    (∀ (addr : Half) (b : Byte),
      (∀ t, memWrite1 addr b s = .next t →
        execLine (.write1 addr b) s = .next { t with host := { t.host with pc := s.host.pc + 1 } }) ∧
      ∀ f, memWrite1 addr b s = .fault f → execLine (.write1 addr b) s = .fault f) ∧
    (busy s = false →
      (∀ r : RegName, read4Response (regOffset r) s = .readOk (regValue s r)) ∧
      ∀ i, i < s.cfg.bufSize → s.cfg.legal = true →
        read1Response (BitVec.ofNat 16 (0x8000 + i)) s = .readOk ((fbByte s i).setWidth 32))

/-- R26, R225, R273: a CMD write with BUSY = 0 latches the word unchecked and clears DONE and ERR, so that STATUS then
reads BUSY and OVR alone; with BUSY = 1 the word is dropped, OVR is set, and nothing else changes. -/
def Obligations.CmdWriteIsAcceptedOrDropped : Prop :=
  ∀ (s : State) (w : Word),
    ∃ t, memWrite4 0x0008 w s = .next t ∧ RegsKept [.status] s t ∧ t.fb = s.fb ∧ t.epoch = s.epoch ∧
      (busy s = false → t.pend = some w ∧ busy t = true ∧ t.regs.done = false ∧ t.regs.err = 0 ∧
        t.regs.ovr = s.regs.ovr) ∧
      (busy s = true → t.pend = s.pend ∧ t.regs.ovr = true ∧ t.regs.done = s.regs.done ∧ t.regs.err = s.regs.err)

/-- R203, R25: a STATUS write clears DONE and OVR where the written bit is 1 and changes nothing else, also while a
command is pending; clearing DONE takes `irq` away. -/
def Obligations.StatusWriteClearsOnlyWrittenOnes : Prop :=
  ∀ (s : State) (v : Word),
    ∃ t, memWrite4 0x0004 v s = .next t ∧ t.pend = s.pend ∧ t.fb = s.fb ∧ t.epoch = s.epoch ∧
      RegsKept [.status] s t ∧ t.regs.err = s.regs.err ∧
      (t.regs.done = true ↔ s.regs.done = true ∧ v.getLsbD 1 = false) ∧
      (t.regs.ovr = true ↔ s.regs.ovr = true ∧ v.getLsbD 8 = false) ∧
      (v.getLsbD 1 = true → t.irq = false)

/-- R230, R24: `irq` is CTRL bit 0 and STATUS bit 1 as they read. A CTRL write without SRST sets IE to bit 0 of the
written value and changes nothing else of the block, and `irq` follows at once from that bit and DONE. -/
def Obligations.IrqFollowsEnableAndDone : Prop :=
  ∀ s : State, s.irq = ((regValue s .ctrl).getLsbD 0 && (regValue s .status).getLsbD 1) ∧
    ∀ v : Word, v.getLsbD 1 = false →
      ∃ t, memWrite4 0x0000 v s = .next t ∧ regValue t .ctrl = v &&& 1 ∧ t.irq = (v.getLsbD 0 && s.regs.done) ∧
        RegsKept [.ctrl] s t ∧ t.pend = s.pend ∧ t.fb = s.fb ∧ t.epoch = s.epoch ∧ t.cfg = s.cfg

/-- R271, R275, R26: while BUSY = 1 CTRL and STATUS read their true values, and any other register and any FB byte reads
as a free value. With BUSY = 0 CMD reads 0. That CMD is among the free ones (R271, R275 and U4 against R26 and R77) is
DEDUCED (log entry 7), and how a draw is numbered is the model's choice (log entry 2). -/
def Obligations.ReadsWhileBusyAreFree : Prop :=
  ∀ s : State,
    (busy s = true →
      read4Response 0x0000 s = .readOk (regValue s .ctrl) ∧ read4Response 0x0004 s = .readOk (regValue s .status) ∧
      (∀ r : RegName, r ∉ [.ctrl, .status] →
        read4Response (regOffset r) s = .readOk (Config.freeWord s.draws)) ∧
      ∀ i, i < s.cfg.bufSize → s.cfg.legal = true →
        read1Response (BitVec.ofNat 16 (0x8000 + i)) s = .readOk ((Config.freeByte s.draws).setWidth 32)) ∧
    (busy s = false → read4Response 0x0008 s = .readOk 0)

/-! ### Hazards -/

/-- R270: while BUSY = 1 a host write of an input register or of an FB byte faults. -/
def Obligations.WriteWhileBusyFaults : Prop :=
  ∀ s : State, busy s = true →
    (∀ (r : RegName) (v : Word),
      r ∈ [.flen, .plen, .evt, .crc, .crcOff, .crcLen, .txPre, .txSidHi, .txSidLo, .txRidHi, .txRidLo, .txHdr] →
      memWrite4 (regOffset r) v s = .fault (.hazardWriteWhileBusy (regOffset r))) ∧
    ∀ (i : Nat) (v : Byte), i < s.cfg.bufSize → s.cfg.legal = true →
      memWrite1 (BitVec.ofNat 16 (0x8000 + i)) v s = .fault (.hazardWriteWhileBusy (BitVec.ofNat 16 (0x8000 + i)))

/-- R270, R275, R224: a step faults only when the host, moving while a command is pending, writes an input register or a
legal FB offset; nothing else ever stops the machine, and no step is refused. -/
def Obligations.OnlyTheHazardStopsAStep : Prop :=
  ∀ s : State, (∀ q, step s ≠ .refused q) ∧
    ∀ f, step s = .fault f → busy s = true ∧ ∃ addr, f = .hazardWriteWhileBusy addr ∧
      ((∃ v r, hostMoves s = some (.write4 addr v) ∧ regAt addr = some r ∧ regIsInput r = true) ∨
        ∃ v, hostMoves s = some (.write1 addr v) ∧ legal1 s.cfg addr = true)

/-! ### Invariants and whole-machine rules -/

/-- R261, R6, R43: the invariant holds at reset. What it says of the host's variables and of the host having seen
BUSY = 0 is about the model's own fields (log entries 3, 8 and 15). -/
def Obligations.InvariantHoldsAtReset : Prop := State.reset.Inv

/-- R25, R26, R42, R45, R220, R86: every step keeps the invariant, in every state that has it. What it says of the host's
variables and of the host having seen BUSY = 0 is about the model's own fields (log entries 3, 8 and 15). -/
def Obligations.EveryStepKeepsTheInvariant : Prop :=
  ∀ s t : State, s.Inv → step s = .next t → t.Inv

/-- R222, R230, R45, R225: DONE rises only at the engine's step, which takes the pending command away; and a pending
word is never replaced: after a step the same word is pending, or none. -/
def Obligations.DoneRisesOnlyByCompletion : Prop :=
  ∀ s t : State, step s = .next t →
    (s.regs.done = false → t.regs.done = true → busy s = true ∧ t.pend = none ∧ hostMoves s = none) ∧
    ∀ w, s.pend = some w → t.pend = some w ∨ t.pend = none

/-- R29, R46: EVT changes only by a successful ENCODE, which adds one, by a host write of EVT, or by a reset. -/
def Obligations.EvtHasThreeWriters : Prop :=
  ∀ s t : State, step s = .next t → t.regs.evt ≠ s.regs.evt →
    (engineMoves s = some .encode ∧ t.regs.err = errValue .ok ∧ t.regs.evt = s.regs.evt + 1) ∨
    (∃ v, hostMoves s = some (.write4 (regOffset .evt) v) ∧ t.regs.evt = v.setWidth 16) ∨
    (t.regs = Regs.reset ∧ (resetMoves s = true ∨ ∃ v, hostMoves s = some (.write4 (regOffset .ctrl) v) ∧ v.getLsbD 1 = true))

/-- R46, R153 to R155: a receive register changes only by a DECODE that completes with OK, or by a reset. -/
def Obligations.ReceiveRegistersHaveTwoWriters : Prop :=
  ∀ (s t : State) (r : RegName), r ∈ rxRegs → step s = .next t → regValue t r ≠ regValue s r →
    (engineMoves s = some .decode ∧ t.regs.err = errValue .ok) ∨
    (t.regs = Regs.reset ∧ (resetMoves s = true ∨ ∃ v, hostMoves s = some (.write4 (regOffset .ctrl) v) ∧ v.getLsbD 1 = true))

/-- R42, R43, R46, R206: a byte of FB changes only by a successful ENCODE at its output bytes, by a host write of that
byte, by a soft reset that aborts an ENCODE at its output bytes, or by a power-on reset. -/
def Obligations.FrameBytesHaveFourWriters : Prop :=
  ∀ (s t : State) (j : Nat), step s = .next t → fbByte t j ≠ fbByte s j →
    (engineMoves s = some .encode ∧ t.regs.err = errValue .ok ∧ EncodeOutput s j) ∨
    (∃ addr v, hostMoves s = some (.write1 addr v) ∧ addr.toNat = 0x8000 + j ∧ fbByte t j = v) ∨
    (∃ v, hostMoves s = some (.write4 (regOffset .ctrl) v) ∧ v.getLsbD 1 = true ∧ encodePending s = true ∧
      EncodeOutput s j) ∨
    resetMoves s = true

/-- R243, R45: with no command pending and nothing for the host to do, a step without a reset pulse keeps all the block's
state. -/
def Obligations.IdleBlockKeepsItsState : Prop :=
  ∀ s : State, s.pend = none → s.host.prog.length ≤ s.host.pc → resetMoves s = false →
    ∃ t, step s = .next t ∧ SameBlock s t

/-- R233, R85: when a CMD write and a completion race, the order of the two turns decides: after the completion the
word is accepted, before it the word is dropped with OVR, and the command completes in both. The list of turns is the
model's own (log entry 4). -/
def Obligations.RaceAdmitsBothOrders : Prop :=
  ∀ (s : State) (w w' : Word), s.pend = some w → s.host.prog[s.host.pc]? = some (.write4 (regOffset .cmd) w') →
    (∃ t, Sys2Proof.core.run 2 { s with turns := [.engine, .host] } = .next t ∧ t.pend = some w' ∧
      t.regs.ovr = s.regs.ovr) ∧
    ∃ t, Sys2Proof.core.run 2 { s with turns := [.host, .engine] } = .next t ∧ t.pend = none ∧
      t.regs.ovr = true ∧ t.regs.done = true

/-- R85, R278: a pending command is not put off for ever: within one step more than the listed turns and what is left of
its free delay, no command is pending or the host has broken rule R270. The delay, free, finite and of no known bound,
is the model's form of the spec's weak fairness (log entries 4 and 16). -/
def Obligations.PendingCommandEndsWithinTheTurns : Prop :=
  ∀ (s : State) (w : Word), s.pend = some w →
    ∃ n, n ≤ s.turns.length + (Config.engineDelay s.issued - s.waited) + 1 ∧
      ((∃ t : State, Sys2Proof.core.run n s = .next t ∧ t.pend = none) ∨
        ∃ f, Sys2Proof.core.run n s = .fault f)
end

