-- ==== Sys2Proof/Laws/State.lean ====
section
/-! SUPPORT. One lemma per field per update of the state, true by `rfl`: later proofs cite these and unfold no record
update. -/

namespace Sys2Proof.Machine

@[simp] theorem fbWrite_cfg (i : Nat) (v : Byte) (s : State) : (fbWrite i v s).cfg = s.cfg := rfl
@[simp] theorem fbWrite_regs (i : Nat) (v : Byte) (s : State) : (fbWrite i v s).regs = s.regs := rfl
@[simp] theorem fbWrite_pend (i : Nat) (v : Byte) (s : State) : (fbWrite i v s).pend = s.pend := rfl
@[simp] theorem fbWrite_fb (i : Nat) (v : Byte) (s : State) : (fbWrite i v s).fb = cellPut s.fb i v := rfl
@[simp] theorem fbWrite_host (i : Nat) (v : Byte) (s : State) : (fbWrite i v s).host = s.host := rfl
@[simp] theorem fbWrite_epoch (i : Nat) (v : Byte) (s : State) : (fbWrite i v s).epoch = s.epoch := rfl
@[simp] theorem fbWrite_draws (i : Nat) (v : Byte) (s : State) : (fbWrite i v s).draws = s.draws := rfl
@[simp] theorem fbWrite_turns (i : Nat) (v : Byte) (s : State) : (fbWrite i v s).turns = s.turns := rfl
@[simp] theorem fbWrite_issued (i : Nat) (v : Byte) (s : State) : (fbWrite i v s).issued = s.issued := rfl
@[simp] theorem fbWrite_waited (i : Nat) (v : Byte) (s : State) : (fbWrite i v s).waited = s.waited := rfl

@[simp] theorem complete_cfg (code : ErrCode) (s : State) : (complete code s).cfg = s.cfg := rfl
@[simp] theorem complete_regs (code : ErrCode) (s : State) :
    (complete code s).regs = { s.regs with err := errValue code, done := true } := rfl
@[simp] theorem complete_pend (code : ErrCode) (s : State) : (complete code s).pend = none := rfl
@[simp] theorem complete_fb (code : ErrCode) (s : State) : (complete code s).fb = s.fb := rfl
@[simp] theorem complete_host (code : ErrCode) (s : State) : (complete code s).host = s.host := rfl
@[simp] theorem complete_epoch (code : ErrCode) (s : State) : (complete code s).epoch = s.epoch := rfl
@[simp] theorem complete_draws (code : ErrCode) (s : State) : (complete code s).draws = s.draws := rfl
@[simp] theorem complete_turns (code : ErrCode) (s : State) : (complete code s).turns = s.turns := rfl
@[simp] theorem complete_issued (code : ErrCode) (s : State) : (complete code s).issued = s.issued := rfl
@[simp] theorem complete_waited (code : ErrCode) (s : State) : (complete code s).waited = s.waited := rfl

@[simp] theorem acceptCmd_cfg (w : Word) (s : State) : (acceptCmd w s).cfg = s.cfg := rfl
@[simp] theorem acceptCmd_regs (w : Word) (s : State) :
    (acceptCmd w s).regs = { s.regs with done := false, err := 0 } := rfl
@[simp] theorem acceptCmd_pend (w : Word) (s : State) : (acceptCmd w s).pend = some w := rfl
@[simp] theorem acceptCmd_fb (w : Word) (s : State) : (acceptCmd w s).fb = s.fb := rfl
@[simp] theorem acceptCmd_host (w : Word) (s : State) :
    (acceptCmd w s).host = { s.host with idleSeen := false } := rfl
@[simp] theorem acceptCmd_epoch (w : Word) (s : State) : (acceptCmd w s).epoch = s.epoch := rfl
@[simp] theorem acceptCmd_draws (w : Word) (s : State) : (acceptCmd w s).draws = s.draws := rfl
@[simp] theorem acceptCmd_turns (w : Word) (s : State) : (acceptCmd w s).turns = s.turns := rfl
@[simp] theorem acceptCmd_issued (w : Word) (s : State) : (acceptCmd w s).issued = s.issued + 1 := rfl
@[simp] theorem acceptCmd_waited (w : Word) (s : State) : (acceptCmd w s).waited = 0 := rfl

@[simp] theorem setCrc_cfg (c : Half) (s : State) : (setCrc c s).cfg = s.cfg := rfl
@[simp] theorem setCrc_regs (c : Half) (s : State) : (setCrc c s).regs = { s.regs with crc := c } := rfl
@[simp] theorem setCrc_pend (c : Half) (s : State) : (setCrc c s).pend = s.pend := rfl
@[simp] theorem setCrc_fb (c : Half) (s : State) : (setCrc c s).fb = s.fb := rfl
@[simp] theorem setCrc_host (c : Half) (s : State) : (setCrc c s).host = s.host := rfl
@[simp] theorem setCrc_epoch (c : Half) (s : State) : (setCrc c s).epoch = s.epoch := rfl
@[simp] theorem setCrc_draws (c : Half) (s : State) : (setCrc c s).draws = s.draws := rfl
@[simp] theorem setCrc_turns (c : Half) (s : State) : (setCrc c s).turns = s.turns := rfl
@[simp] theorem setCrc_issued (c : Half) (s : State) : (setCrc c s).issued = s.issued := rfl
@[simp] theorem setCrc_waited (c : Half) (s : State) : (setCrc c s).waited = s.waited := rfl

@[simp] theorem recordChecksums_cfg (s : State) : (recordChecksums s).cfg = s.cfg := rfl
@[simp] theorem recordChecksums_regs (s : State) :
    (recordChecksums s).regs = { s.regs with csumCalc := decodeChecksum s, csumRx := carriedChecksum s } := rfl
@[simp] theorem recordChecksums_pend (s : State) : (recordChecksums s).pend = s.pend := rfl
@[simp] theorem recordChecksums_fb (s : State) : (recordChecksums s).fb = s.fb := rfl
@[simp] theorem recordChecksums_host (s : State) : (recordChecksums s).host = s.host := rfl
@[simp] theorem recordChecksums_epoch (s : State) : (recordChecksums s).epoch = s.epoch := rfl
@[simp] theorem recordChecksums_draws (s : State) : (recordChecksums s).draws = s.draws := rfl
@[simp] theorem recordChecksums_turns (s : State) : (recordChecksums s).turns = s.turns := rfl
@[simp] theorem recordChecksums_issued (s : State) : (recordChecksums s).issued = s.issued := rfl
@[simp] theorem recordChecksums_waited (s : State) : (recordChecksums s).waited = s.waited := rfl

@[simp] theorem publishFields_cfg (s : State) : (publishFields s).cfg = s.cfg := by simp only [publishFields]
@[simp] theorem publishFields_regs (s : State) :
    (publishFields s).regs = publishedRegs s := by simp only [publishFields]
@[simp] theorem publishFields_pend (s : State) : (publishFields s).pend = s.pend := by simp only [publishFields]
@[simp] theorem publishFields_fb (s : State) : (publishFields s).fb = s.fb := by simp only [publishFields]
@[simp] theorem publishFields_host (s : State) : (publishFields s).host = s.host := by simp only [publishFields]
@[simp] theorem publishFields_epoch (s : State) : (publishFields s).epoch = s.epoch := by simp only [publishFields]
@[simp] theorem publishFields_draws (s : State) : (publishFields s).draws = s.draws := by simp only [publishFields]
@[simp] theorem publishFields_turns (s : State) : (publishFields s).turns = s.turns := by simp only [publishFields]
@[simp] theorem publishFields_issued (s : State) : (publishFields s).issued = s.issued := by simp only [publishFields]
@[simp] theorem publishFields_waited (s : State) : (publishFields s).waited = s.waited := by simp only [publishFields]

@[simp] theorem respond_cfg (r : Response) (s : State) : (respond r s).cfg = s.cfg := rfl
@[simp] theorem respond_regs (r : Response) (s : State) : (respond r s).regs = s.regs := rfl
@[simp] theorem respond_pend (r : Response) (s : State) : (respond r s).pend = s.pend := rfl
@[simp] theorem respond_fb (r : Response) (s : State) : (respond r s).fb = s.fb := rfl
@[simp] theorem respond_host (r : Response) (s : State) : (respond r s).host = { s.host with resp := some r } := rfl
@[simp] theorem respond_epoch (r : Response) (s : State) : (respond r s).epoch = s.epoch := rfl
@[simp] theorem respond_draws (r : Response) (s : State) : (respond r s).draws = s.draws := rfl
@[simp] theorem respond_turns (r : Response) (s : State) : (respond r s).turns = s.turns := rfl
@[simp] theorem respond_issued (r : Response) (s : State) : (respond r s).issued = s.issued := rfl
@[simp] theorem respond_waited (r : Response) (s : State) : (respond r s).waited = s.waited := rfl

@[simp] theorem nextDraw_cfg (s : State) : (nextDraw s).cfg = s.cfg := rfl
@[simp] theorem nextDraw_regs (s : State) : (nextDraw s).regs = s.regs := rfl
@[simp] theorem nextDraw_pend (s : State) : (nextDraw s).pend = s.pend := rfl
@[simp] theorem nextDraw_fb (s : State) : (nextDraw s).fb = s.fb := rfl
@[simp] theorem nextDraw_host (s : State) : (nextDraw s).host = s.host := rfl
@[simp] theorem nextDraw_epoch (s : State) : (nextDraw s).epoch = s.epoch := rfl
@[simp] theorem nextDraw_draws (s : State) : (nextDraw s).draws = s.draws + 1 := rfl
@[simp] theorem nextDraw_turns (s : State) : (nextDraw s).turns = s.turns := rfl
@[simp] theorem nextDraw_issued (s : State) : (nextDraw s).issued = s.issued := rfl
@[simp] theorem nextDraw_waited (s : State) : (nextDraw s).waited = s.waited := rfl

@[simp] theorem noteStatusRead_cfg (addr : Half) (s : State) : (noteStatusRead addr s).cfg = s.cfg := rfl
@[simp] theorem noteStatusRead_regs (addr : Half) (s : State) : (noteStatusRead addr s).regs = s.regs := rfl
@[simp] theorem noteStatusRead_pend (addr : Half) (s : State) : (noteStatusRead addr s).pend = s.pend := rfl
@[simp] theorem noteStatusRead_fb (addr : Half) (s : State) : (noteStatusRead addr s).fb = s.fb := rfl
@[simp] theorem noteStatusRead_host (addr : Half) (s : State) :
    (noteStatusRead addr s).host = { s.host with idleSeen := s.host.idleSeen || (regAt addr == some .status && !busy s) } := rfl
@[simp] theorem noteStatusRead_epoch (addr : Half) (s : State) : (noteStatusRead addr s).epoch = s.epoch := rfl
@[simp] theorem noteStatusRead_draws (addr : Half) (s : State) : (noteStatusRead addr s).draws = s.draws := rfl
@[simp] theorem noteStatusRead_turns (addr : Half) (s : State) : (noteStatusRead addr s).turns = s.turns := rfl
@[simp] theorem noteStatusRead_issued (addr : Half) (s : State) : (noteStatusRead addr s).issued = s.issued := rfl
@[simp] theorem noteStatusRead_waited (addr : Half) (s : State) : (noteStatusRead addr s).waited = s.waited := rfl

@[simp] theorem setHostVar_cfg (x : Nat) (v : Word) (s : State) : (setHostVar x v s).cfg = s.cfg := rfl
@[simp] theorem setHostVar_regs (x : Nat) (v : Word) (s : State) : (setHostVar x v s).regs = s.regs := rfl
@[simp] theorem setHostVar_pend (x : Nat) (v : Word) (s : State) : (setHostVar x v s).pend = s.pend := rfl
@[simp] theorem setHostVar_fb (x : Nat) (v : Word) (s : State) : (setHostVar x v s).fb = s.fb := rfl
@[simp] theorem setHostVar_host (x : Nat) (v : Word) (s : State) :
    (setHostVar x v s).host = { s.host with vars := cellPut s.host.vars x v } := rfl
@[simp] theorem setHostVar_epoch (x : Nat) (v : Word) (s : State) : (setHostVar x v s).epoch = s.epoch := rfl
@[simp] theorem setHostVar_draws (x : Nat) (v : Word) (s : State) : (setHostVar x v s).draws = s.draws := rfl
@[simp] theorem setHostVar_turns (x : Nat) (v : Word) (s : State) : (setHostVar x v s).turns = s.turns := rfl
@[simp] theorem setHostVar_issued (x : Nat) (v : Word) (s : State) : (setHostVar x v s).issued = s.issued := rfl
@[simp] theorem setHostVar_waited (x : Nat) (v : Word) (s : State) : (setHostVar x v s).waited = s.waited := rfl

@[simp] theorem hostGoto_cfg (n : Nat) (s : State) : (hostGoto n s).cfg = s.cfg := rfl
@[simp] theorem hostGoto_regs (n : Nat) (s : State) : (hostGoto n s).regs = s.regs := rfl
@[simp] theorem hostGoto_pend (n : Nat) (s : State) : (hostGoto n s).pend = s.pend := rfl
@[simp] theorem hostGoto_fb (n : Nat) (s : State) : (hostGoto n s).fb = s.fb := rfl
@[simp] theorem hostGoto_host (n : Nat) (s : State) : (hostGoto n s).host = { s.host with pc := n } := rfl
@[simp] theorem hostGoto_epoch (n : Nat) (s : State) : (hostGoto n s).epoch = s.epoch := rfl
@[simp] theorem hostGoto_draws (n : Nat) (s : State) : (hostGoto n s).draws = s.draws := rfl
@[simp] theorem hostGoto_turns (n : Nat) (s : State) : (hostGoto n s).turns = s.turns := rfl
@[simp] theorem hostGoto_issued (n : Nat) (s : State) : (hostGoto n s).issued = s.issued := rfl
@[simp] theorem hostGoto_waited (n : Nat) (s : State) : (hostGoto n s).waited = s.waited := rfl

@[simp] theorem hostAdvance_cfg (s : State) : (hostAdvance s).cfg = s.cfg := rfl
@[simp] theorem hostAdvance_regs (s : State) : (hostAdvance s).regs = s.regs := rfl
@[simp] theorem hostAdvance_pend (s : State) : (hostAdvance s).pend = s.pend := rfl
@[simp] theorem hostAdvance_fb (s : State) : (hostAdvance s).fb = s.fb := rfl
@[simp] theorem hostAdvance_host (s : State) : (hostAdvance s).host = { s.host with pc := s.host.pc + 1 } := rfl
@[simp] theorem hostAdvance_epoch (s : State) : (hostAdvance s).epoch = s.epoch := rfl
@[simp] theorem hostAdvance_draws (s : State) : (hostAdvance s).draws = s.draws := rfl
@[simp] theorem hostAdvance_turns (s : State) : (hostAdvance s).turns = s.turns := rfl
@[simp] theorem hostAdvance_issued (s : State) : (hostAdvance s).issued = s.issued := rfl
@[simp] theorem hostAdvance_waited (s : State) : (hostAdvance s).waited = s.waited := rfl

@[simp] theorem takeTurn_cfg (s : State) : (takeTurn s).cfg = s.cfg := rfl
@[simp] theorem takeTurn_regs (s : State) : (takeTurn s).regs = s.regs := rfl
@[simp] theorem takeTurn_pend (s : State) : (takeTurn s).pend = s.pend := rfl
@[simp] theorem takeTurn_fb (s : State) : (takeTurn s).fb = s.fb := rfl
@[simp] theorem takeTurn_host (s : State) : (takeTurn s).host = s.host := rfl
@[simp] theorem takeTurn_epoch (s : State) : (takeTurn s).epoch = s.epoch := rfl
@[simp] theorem takeTurn_draws (s : State) : (takeTurn s).draws = s.draws := rfl
@[simp] theorem takeTurn_turns (s : State) : (takeTurn s).turns = s.turns.tail := rfl
@[simp] theorem takeTurn_issued (s : State) : (takeTurn s).issued = s.issued := rfl
@[simp] theorem takeTurn_waited (s : State) : (takeTurn s).waited = s.waited + 1 := rfl

@[simp] theorem powerOnReset_cfg (s : State) : (powerOnReset s).cfg = s.cfg := rfl
@[simp] theorem powerOnReset_regs (s : State) : (powerOnReset s).regs = Regs.reset := rfl
@[simp] theorem powerOnReset_pend (s : State) : (powerOnReset s).pend = none := rfl
@[simp] theorem powerOnReset_fb (s : State) : (powerOnReset s).fb = [] := rfl
@[simp] theorem powerOnReset_host (s : State) : (powerOnReset s).host = s.host := rfl
@[simp] theorem powerOnReset_epoch (s : State) : (powerOnReset s).epoch = s.epoch + 1 := rfl
@[simp] theorem powerOnReset_draws (s : State) : (powerOnReset s).draws = s.draws := rfl
@[simp] theorem powerOnReset_turns (s : State) : (powerOnReset s).turns = s.turns := rfl
@[simp] theorem powerOnReset_issued (s : State) : (powerOnReset s).issued = s.issued := rfl
@[simp] theorem powerOnReset_waited (s : State) : (powerOnReset s).waited = s.waited := rfl

@[simp] theorem softReset_regs (s : State) : (softReset s).regs = Regs.reset := rfl
@[simp] theorem softReset_pend (s : State) : (softReset s).pend = none := rfl

end Sys2Proof.Machine
end

