-- ==== Sys2Proof/Laws/Memory.lean ====
section
/-! SUPPORT. The laws of the lists FB and the host's variables are kept in, and of the FB operations over them. -/

namespace Sys2Proof.Machine

/-! ### Lists of cells -/

/-- Read after write, at the same index and at any other, on every list. -/
theorem cellGet_cellPut {α : Type} (l : List (Nat × α)) (i j : Nat) (v : α) :
    cellGet (cellPut l i v) j = if i = j then some v else cellGet l j := by
  induction l with
  | nil => simp [cellPut, cellGet]
  | cons c rest ih =>
    obtain ⟨k, u⟩ := c
    by_cases hlt : k < i
    · simp only [cellPut, hlt, if_true, cellGet, ih]
      by_cases hkj : k = j
      · have : i ≠ j := by omega
        simp [hkj, this]
      · simp [hkj]
    · by_cases hki : k = i
      · subst hki
        by_cases hkj : k = j <;> simp [cellPut, cellGet, hkj]
      · simp [cellPut, hlt, hki, cellGet]

/-- The indexes of a list after a write: those before, and the written one. -/
theorem mem_keys_cellPut {α : Type} (l : List (Nat × α)) (i k : Nat) (v : α) :
    k ∈ (cellPut l i v).map Prod.fst ↔ k = i ∨ k ∈ l.map Prod.fst := by
  induction l with
  | nil => simp [cellPut]
  | cons c rest ih =>
    obtain ⟨a, u⟩ := c
    by_cases hlt : a < i
    · simp only [cellPut, hlt, if_true, List.map_cons, List.mem_cons, ih]
      tauto
    · by_cases hai : a = i
      · subst hai
        simp [cellPut]
      · simp [cellPut, hlt, hai]

/-- A write keeps the canonical form. -/
theorem cellPut_wf {α : Type} (l : List (Nat × α)) (i : Nat) (v : α) (h : cellsWf l) : cellsWf (cellPut l i v) := by
  induction l with
  | nil => simp [cellPut, cellsWf]
  | cons c rest ih =>
    obtain ⟨a, u⟩ := c
    obtain ⟨hhead, htail⟩ := List.pairwise_cons.mp h
    by_cases hlt : a < i
    · simp only [cellPut, hlt, if_true, cellsWf, List.map_cons, List.pairwise_cons]
      refine ⟨fun k hk => ?_, ih htail⟩
      rcases (mem_keys_cellPut rest i k v).mp hk with rfl | hk
      · exact hlt
      · exact hhead k hk
    · by_cases hai : a = i
      · subst hai
        simpa [cellPut, cellsWf] using h
      · have hia : i < a := by omega
        simp only [cellPut, hlt, hai, if_false, cellsWf, List.map_cons, List.pairwise_cons, List.mem_cons]
        refine ⟨fun k hk => ?_, hhead, htail⟩
        rcases hk with rfl | hk
        · exact hia
        · exact hia.trans (hhead k hk)

/-- A write below the bound keeps every index below it. -/
theorem cellPut_below {α : Type} (n : Nat) (l : List (Nat × α)) (i : Nat) (v : α) (hi : i < n) (h : cellsBelow n l) :
    cellsBelow n (cellPut l i v) := by
  intro c hc
  have hk : c.1 ∈ (cellPut l i v).map Prod.fst := List.mem_map_of_mem hc
  rcases (mem_keys_cellPut l i c.1 v).mp hk with heq | hmem
  · omega
  · obtain ⟨d, hd, hdc⟩ := List.mem_map.mp hmem
    have := h d hd
    omega

/-- A byte write inside FB keeps FB's form. -/
theorem cellPut_memory_wf (n : Nat) (fb : List Host.Cell) (i : Nat) (v : Byte) (hi : i < n) (h : Memory.wf n fb) :
    Memory.wf n (cellPut fb i v) :=
  ⟨cellPut_wf fb i v h.1, cellPut_below n fb i v hi h.2⟩

/-- The memory of the reset state has the form. -/
theorem reset_memory_wf : Memory.wf State.reset.cfg.bufSize State.reset.fb := by
  exact ⟨List.Pairwise.nil, fun c hc => by cases hc⟩

/-! ### FB bytes -/

/-- Two states with the same FB and the same power-on contents read the same bytes. -/
theorem fbByte_congr {s t : State} (hfb : t.fb = s.fb) (hep : t.epoch = s.epoch) (i : Nat) :
    fbByte t i = fbByte s i := by
  simp [fbByte, hfb, hep]

theorem fbRange_congr {s t : State} (o n : Nat) (h : ∀ i, o ≤ i → i < o + n → fbByte t i = fbByte s i) :
    fbRange t o n = fbRange s o n := by
  unfold fbRange
  refine List.map_congr_left fun k hk => h _ (by omega) ?_
  have := List.mem_range.mp hk
  omega

@[simp] theorem fbRange_length (s : State) (o n : Nat) : (fbRange s o n).length = n := by simp [fbRange]

/-- A range is its first part followed by the rest. -/
theorem fbRange_append (s : State) (o n m : Nat) : fbRange s o (n + m) = fbRange s o n ++ fbRange s (o + n) m := by
  simp [fbRange, List.range_add, Nat.add_assoc, Function.comp_def]

/-- Read after `FB[i] <- v`. -/
theorem fbByte_fbWrite (i j : Nat) (v : Byte) (s : State) :
    fbByte (fbWrite i v s) j = if i = j then v else fbByte s j := by
  by_cases h : i = j <;> simp [fbByte, cellGet_cellPut, h]

/-! A run of byte writes changes FB alone. -/

@[simp] theorem fbWrites_cfg (bytes : List Byte) : ∀ (i : Nat) (s : State), (fbWrites i bytes s).cfg = s.cfg := by
  induction bytes with
  | nil => intro i s; rfl
  | cons b rest ih => intro i s; rw [fbWrites, ih, fbWrite_cfg]

@[simp] theorem fbWrites_regs (bytes : List Byte) : ∀ (i : Nat) (s : State), (fbWrites i bytes s).regs = s.regs := by
  induction bytes with
  | nil => intro i s; rfl
  | cons b rest ih => intro i s; rw [fbWrites, ih, fbWrite_regs]

@[simp] theorem fbWrites_pend (bytes : List Byte) : ∀ (i : Nat) (s : State), (fbWrites i bytes s).pend = s.pend := by
  induction bytes with
  | nil => intro i s; rfl
  | cons b rest ih => intro i s; rw [fbWrites, ih, fbWrite_pend]

@[simp] theorem fbWrites_host (bytes : List Byte) : ∀ (i : Nat) (s : State), (fbWrites i bytes s).host = s.host := by
  induction bytes with
  | nil => intro i s; rfl
  | cons b rest ih => intro i s; rw [fbWrites, ih, fbWrite_host]

@[simp] theorem fbWrites_epoch (bytes : List Byte) : ∀ (i : Nat) (s : State), (fbWrites i bytes s).epoch = s.epoch := by
  induction bytes with
  | nil => intro i s; rfl
  | cons b rest ih => intro i s; rw [fbWrites, ih, fbWrite_epoch]

@[simp] theorem fbWrites_draws (bytes : List Byte) : ∀ (i : Nat) (s : State), (fbWrites i bytes s).draws = s.draws := by
  induction bytes with
  | nil => intro i s; rfl
  | cons b rest ih => intro i s; rw [fbWrites, ih, fbWrite_draws]

@[simp] theorem fbWrites_turns (bytes : List Byte) : ∀ (i : Nat) (s : State), (fbWrites i bytes s).turns = s.turns := by
  induction bytes with
  | nil => intro i s; rfl
  | cons b rest ih => intro i s; rw [fbWrites, ih, fbWrite_turns]

@[simp] theorem fbWrites_issued (bytes : List Byte) : ∀ (i : Nat) (s : State), (fbWrites i bytes s).issued = s.issued := by
  induction bytes with
  | nil => intro i s; rfl
  | cons b rest ih => intro i s; rw [fbWrites, ih, fbWrite_issued]

@[simp] theorem fbWrites_waited (bytes : List Byte) : ∀ (i : Nat) (s : State), (fbWrites i bytes s).waited = s.waited := by
  induction bytes with
  | nil => intro i s; rfl
  | cons b rest ih => intro i s; rw [fbWrites, ih, fbWrite_waited]

/-- Read after a run of byte writes. -/
theorem fbByte_fbWrites (bytes : List Byte) : ∀ (i j : Nat) (s : State),
    fbByte (fbWrites i bytes s) j =
      if i ≤ j ∧ j < i + bytes.length then bytes.getD (j - i) 0 else fbByte s j := by
  induction bytes with
  | nil =>
    intro i j s
    have : ¬ (i ≤ j ∧ j < i + ([] : List Byte).length) := by simp
    simp [fbWrites]
  | cons b rest ih =>
    intro i j s
    rw [fbWrites, ih, fbByte_fbWrite]
    simp only [List.length_cons]
    by_cases hij : i = j
    · subst hij
      simp
    · by_cases hin : i + 1 ≤ j ∧ j < i + 1 + rest.length
      · have hidx : j - i = j - (i + 1) + 1 := by omega
        rw [if_pos hin, if_pos (by omega), hidx, List.getD_cons_succ]
      · rw [if_neg hin, if_neg hij, if_neg (by omega)]

/-- A run of byte writes inside FB keeps FB's form. -/
theorem fbWrites_memory_wf (n : Nat) (bytes : List Byte) : ∀ (i : Nat) (s : State),
    i + bytes.length ≤ n → Memory.wf n s.fb → Memory.wf n (fbWrites i bytes s).fb := by
  induction bytes with
  | nil => intro i s _ h; exact h
  | cons b rest ih =>
    intro i s hlen h
    simp only [List.length_cons] at hlen
    exact ih (i + 1) (fbWrite i b s) (by omega) (cellPut_memory_wf n s.fb i b (by omega) h)

/-! Free values change FB and the count of draws alone. -/

@[simp] theorem fbDraw_cfg (idxs : List Nat) : ∀ (s : State), (fbDraw idxs s).cfg = s.cfg := by
  induction idxs with
  | nil => intro s; rfl
  | cons i rest ih => intro s; rw [fbDraw, ih]; split <;> simp

@[simp] theorem fbDraw_regs (idxs : List Nat) : ∀ (s : State), (fbDraw idxs s).regs = s.regs := by
  induction idxs with
  | nil => intro s; rfl
  | cons i rest ih => intro s; rw [fbDraw, ih]; split <;> simp

@[simp] theorem fbDraw_pend (idxs : List Nat) : ∀ (s : State), (fbDraw idxs s).pend = s.pend := by
  induction idxs with
  | nil => intro s; rfl
  | cons i rest ih => intro s; rw [fbDraw, ih]; split <;> simp

@[simp] theorem fbDraw_host (idxs : List Nat) : ∀ (s : State), (fbDraw idxs s).host = s.host := by
  induction idxs with
  | nil => intro s; rfl
  | cons i rest ih => intro s; rw [fbDraw, ih]; split <;> simp

@[simp] theorem fbDraw_epoch (idxs : List Nat) : ∀ (s : State), (fbDraw idxs s).epoch = s.epoch := by
  induction idxs with
  | nil => intro s; rfl
  | cons i rest ih => intro s; rw [fbDraw, ih]; split <;> simp

@[simp] theorem fbDraw_turns (idxs : List Nat) : ∀ (s : State), (fbDraw idxs s).turns = s.turns := by
  induction idxs with
  | nil => intro s; rfl
  | cons i rest ih => intro s; rw [fbDraw, ih]; split <;> simp

@[simp] theorem fbDraw_issued (idxs : List Nat) : ∀ (s : State), (fbDraw idxs s).issued = s.issued := by
  induction idxs with
  | nil => intro s; rfl
  | cons i rest ih => intro s; rw [fbDraw, ih]; split <;> simp

@[simp] theorem fbDraw_waited (idxs : List Nat) : ∀ (s : State), (fbDraw idxs s).waited = s.waited := by
  induction idxs with
  | nil => intro s; rfl
  | cons i rest ih => intro s; rw [fbDraw, ih]; split <;> simp

/-- A byte outside the listed indexes is kept. -/
theorem fbByte_fbDraw (idxs : List Nat) : ∀ (s : State) (j : Nat), j ∉ idxs → fbByte (fbDraw idxs s) j = fbByte s j := by
  induction idxs with
  | nil => intro s j _; rfl
  | cons i rest ih =>
    intro s j hj
    simp only [List.mem_cons, not_or] at hj
    rw [fbDraw, ih _ _ hj.2]
    split
    · have hw := fbByte_fbWrite i j (Config.freeByte s.draws) s
      rw [if_neg (Ne.symm hj.1)] at hw
      rw [← hw]
      rfl
    · rfl

/-- Free values keep FB's form: each goes inside FB. -/
theorem fbDraw_memory_wf (idxs : List Nat) : ∀ (s : State),
    Memory.wf s.cfg.bufSize s.fb → Memory.wf s.cfg.bufSize (fbDraw idxs s).fb := by
  induction idxs with
  | nil => intro s h; exact h
  | cons i rest ih =>
    intro s h
    rw [fbDraw]
    by_cases hi : i < s.cfg.bufSize
    · rw [if_pos hi]
      exact ih { fbWrite i (Config.freeByte s.draws) s with draws := s.draws + 1 } (cellPut_memory_wf _ _ _ _ hi h)
    · rw [if_neg hi]
      exact ih s h

end Sys2Proof.Machine
end

