-- ==== Sys2Proof/Laws/Ops.lean ====
section
/-! SUPPORT. What each shared operation and each meaning can do, said once: later proofs cite these lemmas and do not
unfold the operations again. -/

namespace Sys2Proof.Machine

/-! ### Registers -/

@[simp] theorem busy_complete (code : ErrCode) (s : State) : busy (complete code s) = false := rfl

@[simp] theorem busy_acceptCmd (w : Word) (s : State) : busy (acceptCmd w s) = true := rfl

theorem busy_iff (s : State) : busy s = true ↔ ∃ w, s.pend = some w := by
  simp [busy, Option.isSome_iff_exists]

theorem not_busy_iff (s : State) : busy s = false ↔ s.pend = none := by
  simp [busy]

/-- A register's value depends on the register bits and, for STATUS, on BUSY. -/
theorem regValue_congr {s t : State} (hregs : t.regs = s.regs) (hpend : t.pend = s.pend) (r : RegName) :
    regValue t r = regValue s r := by
  cases r <;> simp [regValue, ctrlWord, statusWord, busy, hregs, hpend]

/-- Each register is found at its own offset (10_state.md R22). -/
@[simp] theorem regAt_regOffset (r : RegName) : regAt (regOffset r) = some r := by
  cases r <;> decide

@[simp] theorem legal4_regOffset (r : RegName) : legal4 (regOffset r) = true := by
  cases r <;> decide

/-- A register found at an offset has that offset. -/
theorem regOffset_of_regAt {addr : Half} {r : RegName} (h : regAt addr = some r) : regOffset r = addr := by
  simpa using List.find?_some h

/-! ### CMD writes -/

/-- A CMD write is dropped or accepted (R26). -/
theorem writeCmd_cases (w : Word) (s : State) :
    (busy s = true ∧ writeCmd w s = { s with regs := { s.regs with ovr := true } }) ∨
      (busy s = false ∧ writeCmd w s = acceptCmd w s) := by
  unfold writeCmd
  cases h : busy s <;> simp

/-! ### Soft reset -/

/-- A soft reset aborts an ENCODE with free values in its output bytes, or keeps FB (R205, R206). -/
theorem softReset_cases (s : State) :
    (encodePending s = true ∧
        softReset s = { fbDraw (encodeOutputs s) s with regs := Regs.reset, pend := none }) ∨
      (encodePending s = false ∧ softReset s = { s with regs := Regs.reset, pend := none }) := by
  unfold softReset abortPending
  cases h : encodePending s <;> simp

/-! A soft reset leaves the parameter, the host, the power-on contents and whose move comes next. -/

@[simp] theorem softReset_cfg (s : State) : (softReset s).cfg = s.cfg := by
  simp only [softReset, abortPending]
  split <;> simp

@[simp] theorem softReset_host (s : State) : (softReset s).host = s.host := by
  simp only [softReset, abortPending]
  split <;> simp

@[simp] theorem softReset_epoch (s : State) : (softReset s).epoch = s.epoch := by
  simp only [softReset, abortPending]
  split <;> simp

@[simp] theorem softReset_turns (s : State) : (softReset s).turns = s.turns := by
  simp only [softReset, abortPending]
  split <;> simp

@[simp] theorem softReset_issued (s : State) : (softReset s).issued = s.issued := by
  simp only [softReset, abortPending]
  split <;> simp

@[simp] theorem softReset_waited (s : State) : (softReset s).waited = s.waited := by
  simp only [softReset, abortPending]
  split <;> simp

/-- FB after a soft reset: that of the aborted command. -/
theorem softReset_fb (s : State) : (softReset s).fb = (abortPending s).fb := rfl

/-- A soft reset keeps FB's form. -/
theorem softReset_memory_wf (s : State) (h : Memory.wf s.cfg.bufSize s.fb) :
    Memory.wf s.cfg.bufSize (softReset s).fb := by
  rw [softReset_fb, abortPending]
  split
  · exact fbDraw_memory_wf (encodeOutputs s) s h
  · exact h

/-! ### The CRC -/

@[simp] theorem crc16_nil (c : Half) : crc16 [] c = c := rfl

@[simp] theorem crc16_cons (b : Byte) (bytes : List Byte) (c : Half) :
    crc16 (b :: bytes) c = crc16 bytes (crc16Step c b) := rfl

theorem crc16_append (xs ys : List Byte) (c : Half) : crc16 (xs ++ ys) c = crc16 ys (crc16 xs c) := by
  simp [crc16, List.foldl_append]

/-! ### The frame ENCODE writes -/

@[simp] theorem idBytes_length (hi : Half) (lo : Word) : (idBytes hi lo).length = 6 := rfl

@[simp] theorem frameHeader_length (g : Regs) (n : Half) : (frameHeader g n).length = 23 := by
  simp [frameHeader]

/-- A byte of the state after the header is written. -/
theorem fbByte_writeHeader (s : State) (j : Nat) :
    fbByte (writeHeader s) j =
      if j < 23 then (frameHeader s.regs (BitVec.ofNat 16 (frameLength s))).getD j 0 else fbByte s j := by
  unfold writeHeader
  rw [fbByte_fbWrites]
  simp

/-- A byte of the state after the whole frame is written. -/
theorem fbByte_writeFrame (s : State) (j : Nat) :
    fbByte (writeFrame s) j =
      if j = 23 + s.regs.plen.toNat then hiByte (encodeChecksum s)
      else if j = 24 + s.regs.plen.toNat then loByte (encodeChecksum s)
      else fbByte (writeHeader s) j := by
  unfold writeFrame
  rw [fbByte_fbWrites]
  simp only [List.length_cons, List.length_nil]
  by_cases h0 : j = 23 + s.regs.plen.toNat
  · subst h0
    simp
  · by_cases h1 : j = 24 + s.regs.plen.toNat
    · have hrange : 23 + s.regs.plen.toNat ≤ j ∧ j < 23 + s.regs.plen.toNat + (0 + 1 + 1) := by omega
      have hidx : j - (23 + s.regs.plen.toNat) = 1 := by omega
      rw [if_pos hrange, if_neg h0, if_pos h1, hidx]
      rfl
    · rw [if_neg h0, if_neg h1, if_neg (by omega)]

/-! The frame's writes change FB alone. -/

@[simp] theorem writeFrame_cfg (s : State) : (writeFrame s).cfg = s.cfg := by
  simp only [writeFrame, writeHeader, fbWrites_cfg]

@[simp] theorem writeFrame_regs (s : State) : (writeFrame s).regs = s.regs := by
  simp only [writeFrame, writeHeader, fbWrites_regs]

@[simp] theorem writeFrame_pend (s : State) : (writeFrame s).pend = s.pend := by
  simp only [writeFrame, writeHeader, fbWrites_pend]

@[simp] theorem writeFrame_host (s : State) : (writeFrame s).host = s.host := by
  simp only [writeFrame, writeHeader, fbWrites_host]

@[simp] theorem writeFrame_epoch (s : State) : (writeFrame s).epoch = s.epoch := by
  simp only [writeFrame, writeHeader, fbWrites_epoch]

@[simp] theorem writeFrame_draws (s : State) : (writeFrame s).draws = s.draws := by
  simp only [writeFrame, writeHeader, fbWrites_draws]

@[simp] theorem writeFrame_turns (s : State) : (writeFrame s).turns = s.turns := by
  simp only [writeFrame, writeHeader, fbWrites_turns]

@[simp] theorem writeFrame_issued (s : State) : (writeFrame s).issued = s.issued := by
  simp only [writeFrame, writeHeader, fbWrites_issued]

@[simp] theorem writeFrame_waited (s : State) : (writeFrame s).waited = s.waited := by
  simp only [writeFrame, writeHeader, fbWrites_waited]

/-- A frame that fits keeps FB's form. -/
theorem writeFrame_memory_wf (s : State) (hfit : s.regs.plen.toNat + 25 ≤ s.cfg.bufSize)
    (h : Memory.wf s.cfg.bufSize s.fb) : Memory.wf s.cfg.bufSize (writeFrame s).fb := by
  have hheader : Memory.wf s.cfg.bufSize (writeHeader s).fb :=
    fbWrites_memory_wf _ _ 0 s (by rw [frameHeader_length]; omega) h
  exact fbWrites_memory_wf _ _ _ _ (by simp; omega) hheader

/-! ### The meanings -/

/-- ENCODE either finds the payload too long or builds the frame (R140, R141). -/
theorem execEncode_cases (s : State) :
    (s.cfg.maxPayload < s.regs.plen.toNat ∧ execEncode s = .next (complete .payloadTooLong s)) ∨
      (s.regs.plen.toNat ≤ s.cfg.maxPayload ∧
        execEncode s = .next (complete .ok { writeFrame s with regs := encodeRegs s })) := by
  unfold execEncode
  by_cases h : s.cfg.maxPayload < s.regs.plen.toNat
  · exact .inl ⟨h, if_pos h⟩
  · exact .inr ⟨by omega, if_neg h⟩

/-- CRC_BUF either finds the range outside FB or adds it to the CRC (R185). -/
theorem execCrcBuf_cases (s : State) :
    (s.cfg.bufSize < s.regs.crcOff.toNat + s.regs.crcLen.toNat ∧
        execCrcBuf s = .next (complete .rangeError s)) ∨
      (s.regs.crcOff.toNat + s.regs.crcLen.toNat ≤ s.cfg.bufSize ∧
        execCrcBuf s = .next (complete .ok
          (setCrc (crc16 (fbRange s s.regs.crcOff.toNat s.regs.crcLen.toNat) s.regs.crc) s))) := by
  unfold execCrcBuf
  by_cases h : s.cfg.bufSize < s.regs.crcOff.toNat + s.regs.crcLen.toNat
  · exact .inl ⟨h, if_pos h⟩
  · exact .inr ⟨by omega, if_neg h⟩

/-- DECODE's five outcomes, with the conditions each one holds under (R150, R232). -/
theorem execDecode_cases (s : State) :
    (s.regs.flen.toNat < 25 ∧ execDecode s = .next (complete .frameTooShort s)) ∨
    (s.cfg.bufSize < s.regs.flen.toNat ∧ execDecode s = .next (complete .frameTooLong s)) ∨
    (25 ≤ s.regs.flen.toNat ∧ s.regs.flen.toNat ≤ s.cfg.bufSize ∧
      ((decodeChecksum s ≠ carriedChecksum s ∧
          execDecode s = .next (complete .checksumMismatch (recordChecksums s))) ∨
       (decodeChecksum s = carriedChecksum s ∧ declaredLength s ≠ s.regs.flen ∧
          execDecode s = .next (complete .lengthMismatch (recordChecksums s))) ∨
       (decodeChecksum s = carriedChecksum s ∧ declaredLength s = s.regs.flen ∧
          execDecode s = .next (complete .ok (publishFields (recordChecksums s)))))) := by
  unfold execDecode
  by_cases hshort : s.regs.flen.toNat < 25
  · exact .inl ⟨hshort, if_pos hshort⟩
  rw [if_neg hshort]
  by_cases hlong : s.cfg.bufSize < s.regs.flen.toNat
  · exact .inr (.inl ⟨hlong, if_pos hlong⟩)
  rw [if_neg hlong]
  refine .inr (.inr ⟨by omega, by omega, ?_⟩)
  by_cases hcrc : decodeChecksum s = carriedChecksum s
  · rw [if_neg (not_not.mpr hcrc)]
    by_cases hdecl : declaredLength s = s.regs.flen
    · exact .inr (.inr ⟨hcrc, hdecl, if_neg (not_not.mpr hdecl)⟩)
    · exact .inr (.inl ⟨hcrc, hdecl, if_pos hdecl⟩)
  · exact .inl ⟨hcrc, if_pos hcrc⟩

/-! ### The bus -/

/-- A four-byte write: a bus error, the hazard, or the register's rule (20_memory.md R77). -/
theorem memWrite4_cases (addr : Half) (v : Word) (s : State) :
    memWrite4 addr v s = .next (respond (.writeError addr) s) ∨
      ∃ r, regAt addr = some r ∧ legal4 addr = true ∧
        ((regIsInput r = true ∧ busy s = true ∧ memWrite4 addr v s = .fault (.hazardWriteWhileBusy addr)) ∨
          ((regIsInput r && busy s) = false ∧
            memWrite4 addr v s = .next (respond .writeOk (writeReg r v s)))) := by
  unfold memWrite4
  cases hlegal : legal4 addr
  · exact .inl rfl
  · cases hreg : regAt addr with
    | none => exact .inl rfl
    | some r =>
      refine .inr ⟨r, rfl, rfl, ?_⟩
      cases hin : regIsInput r <;> cases hb : busy s <;> simp [hin]

/-- A one-byte write: a bus error, the hazard, or the FB byte (R77). -/
theorem memWrite1_cases (addr : Half) (v : Byte) (s : State) :
    (legal1 s.cfg addr = false ∧ memWrite1 addr v s = .next (respond (.writeError addr) s)) ∨
    (legal1 s.cfg addr = true ∧ busy s = true ∧ memWrite1 addr v s = .fault (.hazardWriteWhileBusy addr)) ∨
    (legal1 s.cfg addr = true ∧ busy s = false ∧
      memWrite1 addr v s = .next (respond .writeOk (fbWrite (fbIndex addr) v s))) := by
  unfold memWrite1
  cases hlegal : legal1 s.cfg addr <;> cases hb : busy s <;> simp

/-- A legal FB offset names an index inside FB. -/
theorem fbIndex_lt {c : Config} {addr : Half} (h : legal1 c addr = true) : fbIndex addr < c.bufSize := by
  simp only [legal1, Bool.and_eq_true, decide_eq_true_eq] at h
  unfold fbIndex
  omega

/-- A read at a register's offset is a legal one and answers with `readRegValue` (R77). -/
theorem read4Response_regOffset (r : RegName) (s : State) :
    read4Response (regOffset r) s = .readOk (readRegValue s r) := by
  simp [read4Response]

/-- A legal register read returns the register's value, or a free value: the latter only while BUSY = 1 and not for CTRL
and STATUS (70_reset_and_hazards.md R271). -/
theorem readRegValue_cases (s : State) (r : RegName) :
    ((busy s = false ∨ r = .ctrl ∨ r = .status) ∧ readRegValue s r = regValue s r) ∨
    (busy s = true ∧ r ≠ .ctrl ∧ r ≠ .status ∧ readRegValue s r = Config.freeWord s.draws) := by
  cases hb : busy s <;> cases r <;> simp [readRegValue, hb]

/-- Reads change no state of the block (R78). -/
theorem memRead4_sameBlock (addr : Half) (s : State) : SameBlock s (memRead4 addr s) :=
  ⟨rfl, rfl, rfl, rfl, rfl⟩

theorem memRead1_sameBlock (addr : Half) (s : State) : SameBlock s (memRead1 addr s) :=
  ⟨rfl, rfl, rfl, rfl, rfl⟩

/-! ### Steps -/

/-- Whose move it is: a listed turn says so; with none listed the engine moves exactly when a command has been pending
for its free delay (20_memory.md R85, 70_reset_and_hazards.md R278). -/
theorem nextTurn_cases (s : State) :
    (∃ turn rest, s.turns = turn :: rest ∧ nextTurn s = turn) ∨
    (s.turns = [] ∧ busy s = true ∧ Config.engineDelay s.issued ≤ s.waited ∧ nextTurn s = .engine) ∨
    (s.turns = [] ∧ (busy s = false ∨ s.waited < Config.engineDelay s.issued) ∧ nextTurn s = .host) := by
  unfold nextTurn
  cases s.turns with
  | cons turn rest => exact .inl ⟨turn, rest, rfl, rfl⟩
  | nil =>
    cases hb : busy s
    · exact .inr (.inr ⟨rfl, .inl rfl, by simp⟩)
    · by_cases hd : Config.engineDelay s.issued ≤ s.waited
      · exact .inr (.inl ⟨rfl, rfl, hd, by simp [hd]⟩)
      · exact .inr (.inr ⟨rfl, .inr (by omega), by simp [hd]⟩)

/-- A step is the move of the agent whose turn it is (10_state.md R20). -/
theorem step_cases (s : State) :
    (nextTurn s = .host ∧ step s = hostStep (takeTurn s)) ∨
    (nextTurn s = .engine ∧ step s = engineStep (takeTurn s)) ∨
    (nextTurn s = .powerOnReset ∧ step s = .next (powerOnReset (takeTurn s))) := by
  unfold step
  cases h : nextTurn s with
  | host => exact .inl ⟨rfl, rfl⟩
  | engine => exact .inr (.inl ⟨rfl, rfl⟩)
  | powerOnReset => exact .inr (.inr ⟨rfl, rfl⟩)

@[simp] theorem busy_takeTurn (s : State) : busy (takeTurn s) = busy s := rfl

@[simp] theorem regValue_takeTurn (s : State) (r : RegName) : regValue (takeTurn s) r = regValue s r :=
  regValue_congr rfl rfl r

@[simp] theorem fbByte_takeTurn (s : State) (i : Nat) : fbByte (takeTurn s) i = fbByte s i := rfl

/-- The engine idles, carries out the pending command, or meets an illegal word (R104, R201). -/
theorem engineStep_cases (s : State) :
    (s.pend = none ∧ engineStep s = .next s) ∨
    (∃ w i, s.pend = some w ∧ decodeCmd w = .ok i ∧ engineStep s = exec i s) ∨
    (∃ w e, s.pend = some w ∧ decodeCmd w = .error e ∧ engineStep s = .next (completeIllegal s)) := by
  unfold engineStep
  cases hp : s.pend with
  | none => exact .inl ⟨rfl, rfl⟩
  | some w =>
    cases hd : decodeCmd w with
    | ok i => exact .inr (.inl ⟨w, i, rfl, hd, by simp only [hd]⟩)
    | error e => exact .inr (.inr ⟨w, e, rfl, hd, by simp only [hd]⟩)

/-- The host performs its next line, or has none (R120). -/
theorem hostStep_cases (s : State) :
    (s.host.prog[s.host.pc]? = none ∧ hostStep s = .next s) ∨
    (∃ line, s.host.prog[s.host.pc]? = some line ∧ hostStep s = execLine line s) := by
  unfold hostStep
  cases h : s.host.prog[s.host.pc]? with
  | none => exact .inl ⟨rfl, rfl⟩
  | some line => exact .inr ⟨line, rfl, rfl⟩

end Sys2Proof.Machine
end

