-- ==== Sys2Proof/Laws/Frames.lean ====
section
/-! SUPPORT. What the ends of the commands and the host's step leave unchanged, said once in the terms of Safety.lean. -/

namespace Sys2Proof.Machine

/-! ### `complete`, alone and after the writes of a command -/

theorem completed_complete (code : ErrCode) (s : State) : Completed code s (complete code s) :=
  ⟨rfl, rfl, rfl, rfl, rfl⟩

theorem othersKept_complete (code : ErrCode) (s : State) : OthersKept s (complete code s) :=
  ⟨rfl, rfl, rfl, rfl, rfl, rfl, rfl⟩

theorem fbKept_complete (code : ErrCode) (s : State) : FbKept (fun _ => True) s (complete code s) :=
  fun _ _ => rfl

/-- `complete` changes no register but STATUS (60_exceptions.md R222). -/
theorem regsKept_complete (code : ErrCode) (s : State) : RegsKept [.status] s (complete code s) := by
  intro r hr
  cases r <;> first | rfl | simp at hr

theorem regsKept_complete_setCrc (code : ErrCode) (c : Half) (s : State) :
    RegsKept [.status, .crc] s (complete code (setCrc c s)) := by
  intro r hr
  cases r <;> first | rfl | simp at hr

theorem regsKept_complete_recordChecksums (code : ErrCode) (s : State) :
    RegsKept [.status, .csumCalc, .csumRx] s (complete code (recordChecksums s)) := by
  intro r hr
  cases r <;> first | rfl | simp at hr

theorem completed_complete_publishFields (code : ErrCode) (s : State) :
    Completed code s (complete code (publishFields (recordChecksums s))) := by
  constructor <;> simp [publishedRegs]

theorem othersKept_complete_publishFields (code : ErrCode) (s : State) :
    OthersKept s (complete code (publishFields (recordChecksums s))) := by
  constructor <;> simp

theorem regsKept_complete_publishFields (code : ErrCode) (s : State) :
    RegsKept ([.status, .csumCalc, .csumRx, .plen] ++ rxRegs) s
      (complete code (publishFields (recordChecksums s))) := by
  intro r hr
  cases r <;> first | (simp [rxRegs] at hr; done) | simp [regValue, publishedRegs, ctrlWord]

/-! ### What FB reads as after each operation -/

@[simp] theorem fbByte_complete (code : ErrCode) (s : State) (i : Nat) :
    fbByte (complete code s) i = fbByte s i := rfl

@[simp] theorem fbByte_setCrc (c : Half) (s : State) (i : Nat) : fbByte (setCrc c s) i = fbByte s i := rfl

@[simp] theorem fbByte_recordChecksums (s : State) (i : Nat) : fbByte (recordChecksums s) i = fbByte s i :=
  fbByte_congr (recordChecksums_fb s) (recordChecksums_epoch s) i

@[simp] theorem fbByte_publishFields (s : State) (i : Nat) : fbByte (publishFields s) i = fbByte s i :=
  fbByte_congr (publishFields_fb s) (publishFields_epoch s) i

@[simp] theorem fbByte_respond (r : Response) (s : State) (i : Nat) : fbByte (respond r s) i = fbByte s i := rfl

@[simp] theorem fbByte_hostAdvance (s : State) (i : Nat) : fbByte (hostAdvance s) i = fbByte s i := rfl

/-! ### A successful ENCODE -/

/-- The state a successful ENCODE ends in. -/
abbrev encodedState (s : State) : State := complete .ok { writeFrame s with regs := encodeRegs s }

theorem completed_encodedState (s : State) : Completed .ok s (encodedState s) := by
  constructor <;> simp [encodeRegs]

theorem othersKept_encodedState (s : State) : OthersKept s (encodedState s) := by
  constructor <;> simp

theorem regsKept_encodedState (s : State) : RegsKept [.status, .flen, .csumCalc, .evt] s (encodedState s) := by
  intro r hr
  cases r <;> first | (simp at hr; done) | simp [regValue, encodeRegs, ctrlWord]

theorem fbByte_encodedState (s : State) (i : Nat) : fbByte (encodedState s) i = fbByte (writeFrame s) i := by
  simp [fbByte]

/-- A header byte of the frame ENCODE built. -/
theorem fbByte_encodedState_header (s : State) (i : Nat) (hi : i < 23) :
    fbByte (encodedState s) i = (frameHeader s.regs (BitVec.ofNat 16 (frameLength s))).getD i 0 := by
  rw [fbByte_encodedState, fbByte_writeFrame, if_neg (by omega), if_neg (by omega), fbByte_writeHeader, if_pos hi]

/-! ### Fields and their bytes -/

theorem be16_hiByte_loByte (v : Half) : be16 (hiByte v) (loByte v) = v := by
  apply BitVec.eq_of_getLsbD_eq
  intro k hk
  simp only [be16, hiByte, loByte, BitVec.getLsbD_append, BitVec.getLsbD_extractLsb']
  by_cases h : k < 8
  · simp [h]
  · have h8 : k - 8 < 8 := by omega
    have hk8 : 8 + (k - 8) = k := by omega
    simp [h, h8, hk8]

/-! ### The offsets of FB -/

/-- `FB+i` is a legal one-byte offset exactly when FB has a byte `i` (20_memory.md R70, R76, R77). -/
theorem legal1_fbOffset {c : Config} (hc : c.legal = true) (i : Nat) :
    legal1 c (fbOffset i) = true ↔ i < c.bufSize := by
  simp only [Config.legal, Bool.and_eq_true, decide_eq_true_eq] at hc
  by_cases hi : i < 0x8000
  · have haddr : (BitVec.ofNat 16 (0x8000 + i)).toNat = 0x8000 + i := by
      rw [BitVec.toNat_ofNat, Nat.mod_eq_of_lt]
      omega
    simp only [fbOffset, if_pos hi, legal1, haddr, Bool.and_eq_true, decide_eq_true_eq]
    omega
  · rw [fbOffset, if_neg hi]
    have h0 : (0x0000 : Half).toNat = 0 := rfl
    simp only [legal1, h0, Bool.and_eq_true, decide_eq_true_eq]
    omega

/-! ### The host's step -/

theorem advanceOutcome_next {o : Host.Outcome State Fault Refusal} {t : State} (h : advanceOutcome o = .next t) :
    ∃ u, o = .next u ∧ t = hostAdvance u := by
  cases o with
  | next u => exact ⟨u, rfl, (Host.Outcome.next.inj h).symm⟩
  | fault f => cases h
  | refused r => cases h

/-- What a register write does (20_memory.md R77): the soft reset, a CMD write accepted or dropped, CTRL.IE, the STATUS
clears, or an ordinary store. -/
theorem writeReg_cases (r : RegName) (v : Word) (s : State) :
    (r = .ctrl ∧ v.getLsbD 1 = true ∧ writeReg r v s = softReset s) ∨
    (r = .ctrl ∧ v.getLsbD 1 = false ∧
      writeReg r v s = { s with regs := { s.regs with ie := v.getLsbD 0 } }) ∨
    (r = .status ∧ writeReg r v s = { s with regs := clearStatus v s.regs }) ∨
    (r = .cmd ∧ busy s = false ∧ writeReg r v s = acceptCmd v s) ∨
    (r = .cmd ∧ busy s = true ∧ writeReg r v s = { s with regs := { s.regs with ovr := true } }) ∨
    (r ≠ .ctrl ∧ r ≠ .status ∧ r ≠ .cmd ∧ writeReg r v s = { s with regs := storeReg r v s.regs }) := by
  cases r
  case ctrl =>
    have hw : writeReg .ctrl v s = writeCtrl v s := rfl
    rw [hw, writeCtrl]
    cases v.getLsbD 1
    · exact .inr (.inl ⟨rfl, rfl, rfl⟩)
    · exact .inl ⟨rfl, rfl, rfl⟩
  case status => exact .inr (.inr (.inl ⟨rfl, rfl⟩))
  case cmd =>
    rcases writeCmd_cases v s with ⟨hb, hw⟩ | ⟨hb, hw⟩
    · exact .inr (.inr (.inr (.inr (.inl ⟨rfl, hb, hw⟩))))
    · exact .inr (.inr (.inr (.inl ⟨rfl, hb, hw⟩)))
  all_goals exact .inr (.inr (.inr (.inr (.inr ⟨by decide, by decide, by decide, rfl⟩))))

/-- A host step that answers a next state leaves the block alone, writes a register, or writes an FB byte. -/
theorem hostStep_next {s t : State} (h : hostStep s = .next t) :
    SameBlock s t ∨
    (∃ addr v r, s.host.prog[s.host.pc]? = some (.write4 addr v) ∧ regAt addr = some r ∧
      (regIsInput r && busy s) = false ∧ t = hostAdvance (respond .writeOk (writeReg r v s))) ∨
    (∃ addr v, s.host.prog[s.host.pc]? = some (.write1 addr v) ∧ legal1 s.cfg addr = true ∧ busy s = false ∧
      t = hostAdvance (respond .writeOk (fbWrite (fbIndex addr) v s))) := by
  rcases hostStep_cases s with ⟨_, hstep⟩ | ⟨line, hline, hstep⟩ <;> rw [hstep] at h
  · cases h
    exact .inl ⟨rfl, rfl, rfl, rfl, rfl⟩
  cases line with
  | read4 addr x =>
    cases h
    exact .inl ⟨rfl, rfl, rfl, rfl, rfl⟩
  | read1 addr x =>
    cases h
    exact .inl ⟨rfl, rfl, rfl, rfl, rfl⟩
  | bnz x k target =>
    simp only [execLine] at h
    cases h
    left
    split <;> exact ⟨rfl, rfl, rfl, rfl, rfl⟩
  | write4 addr v =>
    obtain ⟨u, hu, rfl⟩ := advanceOutcome_next h
    rcases memWrite4_cases addr v s with hw | ⟨r, hr, _, ⟨_, _, hw⟩ | ⟨hb, hw⟩⟩ <;> rw [hw] at hu <;> cases hu
    · exact .inl ⟨rfl, rfl, rfl, rfl, rfl⟩
    · exact .inr (.inl ⟨addr, v, r, hline, hr, hb, rfl⟩)
  | write1 addr v =>
    obtain ⟨u, hu, rfl⟩ := advanceOutcome_next h
    rcases memWrite1_cases addr v s with ⟨_, hw⟩ | ⟨_, _, hw⟩ | ⟨hl, hb, hw⟩ <;> rw [hw] at hu <;> cases hu
    · exact .inl ⟨rfl, rfl, rfl, rfl, rfl⟩
    · exact .inr (.inr ⟨addr, v, hline, hl, hb, rfl⟩)

end Sys2Proof.Machine
end

