-- ==== Sys2Proof/Laws/PerInstr.lean ====
section
/-! SUPPORT. The per-instruction family OneWordFormat: a statement about each command as it is written. -/

namespace Sys2Proof.Laws.OneWordFormat

/-- A command is well formed, and its word carries its OP in bits [7:0] and zeros in RSVD (30_encoding.md R100, R103). -/
def Statement (i : Instr) : Prop :=
  i.wf = true ∧ cmdOp (encodeCmd i) = i.opcode ∧ cmdRsvd (encodeCmd i) = 0

theorem nop : Statement .nop := by unfold Statement; decide

theorem encode : Statement .encode := by unfold Statement; decide

theorem decode : Statement .decode := by unfold Statement; decide

theorem crcInit : Statement .crcInit := by unfold Statement; decide

theorem crcByte (d : Byte) : Statement (.crcByte d) := by
  unfold Statement
  revert d
  decide

theorem crcBuf : Statement .crcBuf := by unfold Statement; decide

end Sys2Proof.Laws.OneWordFormat
end

