-- ==== Sys2Proof/Tests/Slice0.lean ====
section
/-! SUPPORT. Tests and witnesses. Expected values are the spec's own (95_test_vectors.md, named by vector) or words
written out from 30_encoding.md; each witness shows a state and operands that meet the hypotheses of the obligation it
is named after. -/

namespace Sys2Proof.Tests

open Sys2Proof Sys2Proof.Machine

-- The CRC over a whole frame nests deeper than the default.
set_option maxRecDepth 8000

/-! ### Builders -/

/-- FB cells for bytes from index `i` on. -/
def cellsFrom : Nat → List Byte → List Host.Cell
  | _, [] => []
  | i, b :: rest => (i, b) :: cellsFrom (i + 1) rest

/-- The reset state with FB[0 ..] written. -/
def withFrame (bytes : List Byte) (s : State) : State := { s with fb := cellsFrom 0 bytes }

def withRegs (regs : Regs) (s : State) : State := { s with regs := regs }

/-- The engine's turn is next. -/
def engineNext (s : State) : State := { s with turns := [.engine] }

/-- A command pending, as after its CMD write was accepted, and the engine's turn next. -/
def pending (w : Word) : State := engineNext (acceptCmd w State.reset)

/-- The TX registers of V-E1. -/
def announceRegs : Regs :=
  { Regs.reset with
    txPre := 0x5AA5, txSidHi := 0x0102, txSidLo := 0x03040506, txRidHi := 0x1112, txRidLo := 0x13141516,
    txHdr := 0x0001FF }

/-- The start of V-E1. -/
def announce : State := withRegs announceRegs State.reset

/-- The frame of V-E1, without its checksum. -/
def announceBody : List Byte :=
  [0x5A, 0xA5, 0x00, 0x19, 0x01, 0x02, 0x03, 0x04, 0x05, 0x06, 0x11, 0x12, 0x13, 0x14, 0x15, 0x16,
    0xFF, 0x00, 0x01, 0x01, 0x00, 0x00, 0x00]

/-- The frame of V-E1. -/
def announceFrame : List Byte := announceBody ++ [0x2B, 0x7C]

/-- The start of V-D1. -/
def received : State := withFrame announceFrame (withRegs { Regs.reset with flen := 0x19 } State.reset)

/-- The start of V-D2: FB[19] = 00. -/
def corrupted : State := fbWrite 19 0x00 received

/-- The start of V-D3: the declared length is 26, the checksum is right. -/
def wrongLength : State := fbWrite 24 0xA9 (fbWrite 23 0x75 (fbWrite 3 0x1A received))

/-- The outcome is a next state of which `p` holds. -/
def nextSat (p : State → Bool) : Host.Outcome State Fault Refusal → Bool
  | .next t => p t
  | .fault _ | .refused _ => false

/-- The machine right after reset with a host that has one line to perform. -/
def hostAt (line : Line) : State := State.reset.withProgram [line]

/-! ### WellFormed: one ill-formed term per check -/

/-- R103: format C0 wants DATA8 = 0 and RSVD = 0, format C8 wants RSVD = 0. -/
theorem test_wf_operand_fields :
    Format.c0.admits { data8 := 1, rsvd := 0 } = false ∧ Format.c0.admits { data8 := 0, rsvd := 1 } = false ∧
    Format.c8.admits { data8 := 0xFF, rsvd := 1 } = false ∧ Format.c8.admits { data8 := 0xFF, rsvd := 0 } = true := by
  decide

/-- R6: BUF_SIZE lies from 25 to 32768. -/
theorem test_wf_buf_size :
    Config.legal { bufSize := 24 } = false ∧ Config.legal { bufSize := 25 } = true ∧
    Config.legal { bufSize := 32768 } = true ∧ Config.legal { bufSize := 32769 } = false := by
  decide

/-! ### Decoding, from words written out bit by bit after R100 and R101 -/

/-- OP in bits [7:0]: 00000000, 00000001, 00000010, 00010000, 00010001 with DATA8 = 10100101, 00010010. -/
theorem test_decode_words :
    decodeCmd 0b00000000000000000000000000000000 = .ok .nop ∧
    decodeCmd 0b00000000000000000000000000000001 = .ok .encode ∧
    decodeCmd 0b00000000000000000000000000000010 = .ok .decode ∧
    decodeCmd 0b00000000000000000000000000010000 = .ok .crcInit ∧
    decodeCmd 0b00000000000000001010010100010001 = .ok (.crcByte 0b10100101) ∧
    decodeCmd 0b00000000000000000000000000010010 = .ok .crcBuf := by
  decide

/-- R103, R105: the neighbours of the rows are illegal, by name. -/
theorem test_decode_illegal :
    decodeCmd 0x00000003 = .error (.unknownOpcode 0x03) ∧ decodeCmd 0x00000013 = .error (.unknownOpcode 0x13) ∧
    decodeCmd 0x00000100 = .error (.operandBits 0x00) ∧ decodeCmd 0x00013111 = .error (.operandBits 0x11) ∧
    decodeCmd 0x80000012 = .error (.operandBits 0x12) := by
  decide

/-- The table's numbering: 32 bits, OP lowest. -/
theorem test_decodeTableWord :
    decodeTableWord 32 0x00003111 = some (.crcByte 0x31) ∧ decodeTableWord 32 0x00000101 = none ∧
    decodeTableWord 8 0x12 = some .crcBuf := by
  decide

/-- `step` runs the word placed by `withFetchWord` as the first command after reset. -/
theorem test_withFetchWord :
    nextSat (fun t => t.regs.crc == 0xC782 && t.pend == none) (step (State.reset.withFetchWord 32 0x00003111)) = true := by
  decide

/-! ### The CRC (V-C1 to V-C10) -/

/-- V-C1 to V-C5. -/
theorem test_crc16Step :
    crc16Step 0xFFFF 0x31 = 0xC782 ∧ crc16Step 0x0000 0x00 = 0x0000 ∧ crc16Step 0x0000 0x01 = 0x1021 ∧
    crc16Step 0x8000 0x00 = 0x9188 ∧ crc16Step 0x1234 0x56 = 0x3C40 := by
  decide

/-- V-C6 to V-C8. -/
theorem test_crc16 :
    crc16 [] 0xFFFF = 0xFFFF ∧ crc16 [0x80] 0xFFFF = 0x7078 ∧ crc16 [0xFF] 0xFFFF = 0xFF00 ∧
    crc16 [0x00, 0x00] 0xFFFF = 0x1D0F ∧
    crc16 [0x31, 0x32, 0x33, 0x34, 0x35, 0x36, 0x37, 0x38, 0x39] 0xFFFF = 0x29B1 := by
  decide

/-! ### The commands -/

/-- V-X1. -/
theorem test_nop : nextSat (fun t => regValue t .status == 0x00000002) (step (pending 0x00000000)) = true := by
  decide

/-- V-E1. -/
theorem test_encode_announce :
    nextSat (fun t => t.fb == cellsFrom 0 announceFrame && regValue t .flen == 0x00000019 &&
      regValue t .csumCalc == 0x00002B7C && regValue t .evt == 0x00000002 && regValue t .status == 0x00000002)
      (exec .encode announce) = true := by
  decide

/-- V-E4: the event id wraps. -/
theorem test_encode_wraps_evt :
    nextSat (fun t => fbByte t 17 == 0xFF && fbByte t 18 == 0xFF && fbByte t 23 == 0x8F && fbByte t 24 == 0x3D &&
      regValue t .evt == 0x00000000)
      (exec .encode (withRegs { announceRegs with evt := 0xFFFF } State.reset)) = true := by
  decide

/-- V-D1. -/
theorem test_decode_announce :
    nextSat (fun t => regValue t .status == 0x00000002 && regValue t .rxPre == 0x00005AA5 &&
      regValue t .rxLen == 0x00000019 && regValue t .rxSidHi == 0x00000102 && regValue t .rxSidLo == 0x03040506 &&
      regValue t .rxRidHi == 0x00001112 && regValue t .rxRidLo == 0x13141516 && regValue t .rxHdr == 0x000001FF &&
      regValue t .rxEvt == 0x00000001 && regValue t .csumRx == 0x00002B7C)
      (exec .decode received) = true := by
  decide

/-- V-D4: length and checksum both wrong, the checksum is checked first. -/
theorem test_decode_checksum_first :
    nextSat (fun t => regValue t .status == 0x00000022 && regValue t .csumCalc == 0x000075A9 &&
      regValue t .csumRx == 0x00002B7C && regValue t .rxPre == 0)
      (exec .decode (fbWrite 3 0x1A received)) = true := by
  decide

/-- V-C11. -/
theorem test_crcInit :
    nextSat (fun t => regValue t .crc == 0x0000FFFF && regValue t .status == 0x00000002)
      (exec .crcInit (setCrc 0x1234 State.reset)) = true := by
  decide

/-- V-C12. -/
theorem test_crcByte :
    nextSat (fun t => regValue t .crc == 0x0000C782 && regValue t .status == 0x00000002) (step (pending 0x00003111)) =
      true := by
  decide

/-- V-C16. -/
theorem test_crcBuf :
    nextSat (fun t => regValue t .crc == 0x00002B7C) (exec .crcBuf (withCrcRange 0 23 received)) = true := by
  decide

/-- V-C20: the sum does not wrap. -/
theorem test_crcBuf_no_wrap :
    nextSat (fun t => regValue t .status == 0x00000062 && regValue t .crc == 0x0000FFFF)
      (exec .crcBuf (withCrcRange 0xFFFF 0xFFFF State.reset)) = true := by
  decide

/-- V-X2, V-C14: an illegal word. -/
theorem test_illegal_word :
    nextSat (fun t => regValue t .status == 0x00000072 && regValue t .crc == 0x0000FFFF) (step (pending 0x00013111)) =
      true := by
  decide

/-! ### The bus and the host's lines -/

/-- V-X5: ERR keeps 7. -/
theorem test_status_write :
    nextSat (fun t => regValue t .status == 0x00000070)
      (memWrite4 0x0004 0x00000002 (completeIllegal State.reset)) = true := by
  decide

/-- V-B8. -/
theorem test_tx_hdr_write :
    nextSat (fun t => read4Response 0x0038 t == .readOk 0x00FFFFFF) (memWrite4 0x0038 0xFFFFFFFF State.reset) = true := by
  decide

/-- V-X10: the hazard. -/
theorem test_hazard :
    memWrite4 0x000C 0x19 (pending 0x00000002) = .fault (.hazardWriteWhileBusy 0x000C) :=
  rfl

/-- V-X12: STATUS while busy. -/
theorem test_read_status_busy : read4Response 0x0004 (pending 0x00000001) = .readOk 0x00000001 := by
  decide

/-- V-B1 to V-B5: which accesses are legal. -/
theorem test_legal :
    legal4 0x0002 = false ∧ legal4 0x0068 = false ∧ legal4 0x0064 = true ∧ legal4 0x8000 = false ∧
    legal1 Config.default 0x0004 = false ∧ legal1 Config.default 0x8400 = false ∧
    legal1 Config.default 0x83FF = true := by
  decide

/-- V-B6 with BUSY = 0. -/
theorem test_read_cmd_idle : read4Response 0x0008 State.reset = .readOk 0x00000000 := by
  decide

/-- R120: a host read puts the register's value into the variable and goes on at the next line. -/
theorem test_host_read :
    nextSat (fun t => hostVar t 7 == 0x0000FFFF && t.host.pc == 1) (step (hostAt (.read4 0x0018 7))) = true := by
  decide

/-- R121, P2: the expansions of `ldid`, `ldhdr`, `run` and `wait`. -/
theorem test_assemble :
    assemble [.ldid .sid 0x01 0x02 0x03 0x04 0x05 0x06, .ldhdr 0xFF 0x01 0x00, .label 9, .run .encode, .bnz 0 5 9] =
      some [.write4 0x0028 0x00000102, .write4 0x002C 0x03040506, .write4 0x0038 0x000001FF,
        .write4 0x0008 0x00000001, .read4 0x0004 0, .bnz 0 0 4, .bnz 0 5 3] := by
  decide

/-- R121: `wrbytes` and `wrb`. -/
theorem test_assemble_bytes :
    assemble [.wrbytes 23 [0xAA, 0xBB], .wrb 19 0x00, .srst] =
      some [.write1 0x8017 0xAA, .write1 0x8018 0xBB, .write1 0x8013 0x00, .write4 0x0000 0x00000002] := by
  decide

/-- R10, R70, R75: a `wrbytes` that runs past FB+32767 does not come round to FB+0: the byte after it gets a one-byte
transaction outside FB. -/
theorem test_assemble_bytes_past_the_end :
    assemble [.wrbytes 32767 [0xAA, 0xBB]] = some [.write1 0xFFFF 0xAA, .write1 0x0000 0xBB] ∧
    legal1 { bufSize := 32768 } 0xFFFF = true ∧ legal1 { bufSize := 32768 } 0x0000 = false := by
  decide

/-- Log entry 20: a label at two places is the first, one that stands nowhere rejects the source, and one at the end of
the source names the end of the program. -/
theorem test_assemble_labels :
    assemble [.label 1, .srst, .label 1, .bnz 0 3 1] = some [.write4 0x0000 0x00000002, .bnz 0 3 0] ∧
    assemble [.bnz 0 3 1] = none ∧ assemble [.bnz 0 3 1, .label 1] = some [.bnz 0 3 1] := by
  decide

/-! ### Witnesses: encoding and whose step it is -/

theorem witness_DecodeAndEncodeAgree : decodeCmd 0x0000FF11 = .ok (.crcByte 0xFF) := by decide

theorem witness_AtMostOneRowSelectsAWord :
    { op := .crcByte, matchWord := 0x00000011, mask := 0xFFFF00FF } ∈ opcodeMap ∧
    OpcodeRow.selects { op := .crcByte, matchWord := 0x00000011, mask := 0xFFFF00FF } 0x0000FF11 = true := by
  decide

/-- Both clauses, each at its lowest and at its highest operand bit. -/
theorem witness_OperandBitsMustBeZero :
    (cmdOp 0x00000101 = 0x01 ∧ (0x00000101 : Word).extractLsb' 8 24 ≠ 0) ∧
    (cmdOp 0x80000012 = 0x12 ∧ (0x80000012 : Word).extractLsb' 8 24 ≠ 0) ∧
    (cmdOp 0x00010011 = 0x11 ∧ (0x00010011 : Word).extractLsb' 16 16 ≠ 0) ∧
    (cmdOp 0x80000011 = 0x11 ∧ (0x80000011 : Word).extractLsb' 16 16 ≠ 0) ∧
    (pending 0x00000101).pend = some 0x00000101 := by
  decide

/-- A command pending, with no turn listed, for as many moves as its free delay: the engine's move is the next. -/
def overdue (w : Word) : State :=
  { acceptCmd w State.reset with waited := Config.engineDelay (acceptCmd w State.reset).issued }

/-- With the engine's turn listed, and with no turn listed at the first move after the delay. -/
theorem witness_StepRunsThePendingCommand :
    (pending 0x00000002).pend = some 0x00000002 ∧ decodeCmd 0x00000002 = .ok .decode ∧
    (pending 0x00000002).turns = .engine :: [] ∧
    (overdue 0x00000002).pend = some 0x00000002 ∧ (overdue 0x00000002).turns = [] ∧
    Config.engineDelay (overdue 0x00000002).issued ≤ (overdue 0x00000002).waited :=
  ⟨rfl, by decide, rfl, rfl, rfl, Nat.le_refl _⟩

/-- The four clauses, the last with the host's move and with the engine's. -/
theorem witness_TurnsDecideWhoMoves :
    ({ State.reset with turns := [.host] } : State).turns = .host :: [] ∧
    ({ State.reset with turns := [.engine] } : State).turns = .engine :: [] ∧ State.reset.pend = none ∧
    ({ State.reset with turns := [.powerOnReset] } : State).turns = .powerOnReset :: [] ∧
    State.reset.turns = [] ∧ (overdue 0x00000000).turns = [] ∧ (overdue 0x00000000).pend ≠ none :=
  ⟨rfl, rfl, rfl, rfl, rfl, rfl, by decide⟩

/-- An opcode the map does not list, and one with an operand bit set that its format wants zero. -/
theorem witness_IllegalWordOnlyReportsIllegalCmd :
    (pending 0x00000003).pend = some 0x00000003 ∧ (∀ i : Instr, (0x00000003 : Word) ≠ encodeCmd i) ∧
    (pending 0x00010011).pend = some 0x00010011 ∧ (∀ i : Instr, (0x00010011 : Word) ≠ encodeCmd i) := by
  have hop : ∀ d : Byte, (0x00000003 : Word) ≠ encodeCmd (.crcByte d) := by decide
  have hrsvd : ∀ d : Byte, (0x00010011 : Word) ≠ encodeCmd (.crcByte d) := by decide
  refine ⟨rfl, fun i => ?_, rfl, fun i => ?_⟩
  · cases i with
    | crcByte d => exact hop d
    | nop | encode | decode | crcInit | crcBuf => decide
  · cases i with
    | crcByte d => exact hrsvd d
    | nop | encode | decode | crcInit | crcBuf => decide

/-! ### Witnesses: the commands -/

/-- An ENCODE of PLEN 1000 = MAX_PAYLOAD + 1 (V-E7), and DECODEs of FLEN 24 (V-D5) and 1025 (V-D7). -/
theorem witness_FailedCommandsWriteNothingElse :
    nextSat (fun t => t.regs.err == 5) (exec .encode (withRegs { announceRegs with plen := 1000 } State.reset)) = true ∧
    nextSat (fun t => t.regs.err == errValue .frameTooShort)
      (exec .decode (withRegs { Regs.reset with flen := 24 } State.reset)) = true ∧
    nextSat (fun t => t.regs.err == errValue .frameTooLong)
      (exec .decode (withRegs { Regs.reset with flen := 1025 } State.reset)) = true := by
  decide

/-- V-C21: o + n = BUF_SIZE; V-C19: o + n = BUF_SIZE + 1. -/
theorem witness_CrcBufAddsRangeOrReportsRangeError :
    (withCrcRange 0 1024 State.reset).regs.crcOff.toNat + (withCrcRange 0 1024 State.reset).regs.crcLen.toNat =
      State.reset.cfg.bufSize ∧
    (withCrcRange 1000 25 State.reset).regs.crcOff.toNat + (withCrcRange 1000 25 State.reset).regs.crcLen.toNat =
      State.reset.cfg.bufSize + 1 := by
  decide

/-- The two parts end at BUF_SIZE. -/
theorem witness_CrcChains :
    (1022 : Half).toNat + (1 : Half).toNat + (1 : Half).toNat = State.reset.cfg.bufSize ∧
    (1022 : Half).toNat + (1 : Half).toNat + (1 : Half).toNat < 2 ^ 16 ∧
    ∃ t, exec .crcBuf (withCrcRange 1022 1 State.reset) = .next t :=
  ⟨by decide, by decide, _, rfl⟩

/-- PLEN = MAX_PAYLOAD and PLEN = MAX_PAYLOAD + 1. -/
theorem witness_EncodeChecksOnlyPayloadLength :
    (withRegs { announceRegs with plen := 1000 } State.reset).regs.plen.toNat = State.reset.cfg.bufSize - 25 + 1 ∧
    (withRegs { announceRegs with plen := 999 } State.reset).regs.plen.toNat = State.reset.cfg.bufSize - 25 := by
  decide

/-- V-E6, the largest frame. -/
def largest : State := withRegs { announceRegs with plen := 999 } State.reset

theorem witness_EncodeWritesHeaderFields :
    largest.cfg.legal = true ∧ largest.regs.plen.toNat = largest.cfg.bufSize - 25 := by
  decide

/-- The smallest BUF_SIZE, at which only an empty payload fits. -/
theorem witness_EncodeAppendsTheFrameChecksum :
    ({ announce with cfg := { bufSize := 25 } } : State).cfg.legal = true ∧
    ({ announce with cfg := { bufSize := 25 } } : State).regs.plen.toNat = 25 - 25 := by
  decide

/-- The largest BUF_SIZE and the largest payload it takes. -/
theorem witness_EncodeSetsFrameLength :
    ({ withRegs { announceRegs with plen := 32743 } State.reset with cfg := { bufSize := 32768 } } : State).cfg.legal =
      true ∧
    (withRegs { announceRegs with plen := 32743 } State.reset).regs.plen.toNat = 32768 - 25 := by
  decide

/-- Both clauses at their boundary. -/
theorem witness_EncodeStampsAndAdvancesEventId :
    largest.cfg.legal = true ∧ largest.regs.plen.toNat ≤ largest.cfg.bufSize - 25 ∧
    largest.cfg.bufSize - 25 < (withRegs { announceRegs with plen := 1000 } State.reset).regs.plen.toNat := by
  decide

theorem witness_EncodeFrame : largest.regs.plen.toNat ≤ largest.cfg.bufSize - 25 := by decide

/-- FLEN 24, and FLEN 1025 = BUF_SIZE + 1. -/
theorem witness_DecodeChecksLengthRange :
    (24 : Half).toNat < 25 ∧ 25 ≤ (1025 : Half).toNat ∧ State.reset.cfg.bufSize < (1025 : Half).toNat := by
  decide

/-- FLEN 25, and FLEN 1024 = BUF_SIZE. -/
theorem witness_DecodeRecordsBothChecksums :
    (25 ≤ received.regs.flen.toNat ∧ received.regs.flen.toNat ≤ received.cfg.bufSize) ∧
    25 ≤ (1024 : Half).toNat ∧ (1024 : Half).toNat ≤ State.reset.cfg.bufSize := by
  decide

/-- V-D2. -/
theorem witness_DecodeReportsChecksumMismatch :
    25 ≤ corrupted.regs.flen.toNat ∧ corrupted.regs.flen.toNat ≤ corrupted.cfg.bufSize ∧
    crc16 (fbRange corrupted 0 (corrupted.regs.flen.toNat - 2)) 0xFFFF ≠
      fbHalf corrupted (corrupted.regs.flen.toNat - 2) := by
  decide

/-- V-D3. -/
theorem witness_DecodeReportsLengthMismatch :
    25 ≤ wrongLength.regs.flen.toNat ∧ wrongLength.regs.flen.toNat ≤ wrongLength.cfg.bufSize ∧
    crc16 (fbRange wrongLength 0 (wrongLength.regs.flen.toNat - 2)) 0xFFFF =
      fbHalf wrongLength (wrongLength.regs.flen.toNat - 2) ∧
    fbByte wrongLength 2 ++ fbByte wrongLength 3 ≠ wrongLength.regs.flen := by
  decide

/-- V-D1. -/
theorem witness_DecodePublishesHeaderFields :
    25 ≤ received.regs.flen.toNat ∧ received.regs.flen.toNat ≤ received.cfg.bufSize ∧
    crc16 (fbRange received 0 (received.regs.flen.toNat - 2)) 0xFFFF = fbHalf received (received.regs.flen.toNat - 2) ∧
    fbByte received 2 ++ fbByte received 3 = received.regs.flen := by
  decide

/-- The frame of V-D1 with two different bytes at FLEN, the first index that is not read. -/
theorem witness_DecodeIgnoresBytesBeyondTheFrame :
    (fbWrite 25 0x01 received).regs = received.regs ∧ (fbWrite 25 0x01 received).cfg = received.cfg ∧
    (∀ i, i < received.regs.flen.toNat → fbByte (fbWrite 25 0x01 received) i = fbByte (fbWrite 25 0x02 received) i) ∧
    ∃ t, exec .decode (fbWrite 25 0x02 received) = .next t := by
  refine ⟨rfl, rfl, fun i hi => ?_, ?_⟩
  · have hlen : received.regs.flen.toNat = 25 := by decide
    rw [fbByte_fbWrite, fbByte_fbWrite, if_neg (by omega), if_neg (by omega)]
  · rcases execDecode_cases (fbWrite 25 0x02 received) with
      ⟨_, h⟩ | ⟨_, h⟩ | ⟨_, _, ⟨_, h⟩ | ⟨_, _, h⟩ | ⟨_, _, h⟩⟩ <;> exact ⟨_, h⟩

theorem witness_RoundTripReproducesEveryField :
    largest.cfg.legal = true ∧ largest.regs.plen.toNat ≤ largest.cfg.bufSize - 25 := by
  decide

/-- V-D1 is accepted; index 22 lies before the checksum, 23 and 24 in it. -/
theorem witness_SingleBitErrorIsDetected :
    nextSat (fun t => t.regs.err == errValue .ok) (exec .decode received) = true ∧
    22 < received.regs.flen.toNat - 2 ∧ received.regs.flen.toNat - 2 ≤ 23 ∧ 24 < received.regs.flen.toNat := by
  decide

/-- Two ENCODEs in a row, the second from where the first ended. -/
theorem witness_EventIdsCountUp :
    exec .encode announce = .next (encodedState announce) ∧ (encodedState announce).regs.err = errValue .ok ∧
    exec .encode (encodedState announce) = .next (encodedState (encodedState announce)) ∧
    (encodedState (encodedState announce)).regs.err = errValue .ok ∧ announce.regs.evt.toNat + 2 ≤ 2 ^ 16 := by
  refine ⟨?_, by simp, ?_, by simp, by decide⟩
  · rcases execEncode_cases announce with ⟨h, _⟩ | ⟨_, h⟩
    · exact absurd h (by decide)
    · exact h
  · rcases execEncode_cases (encodedState announce) with ⟨h, _⟩ | ⟨_, h⟩
    · exact absurd h (by simp [encodeRegs]; decide)
    · exact h

theorem witness_EncodedFrameHasZeroResidue :
    announce.cfg.legal = true ∧ announce.regs.plen.toNat ≤ announce.cfg.bufSize - 25 := by
  decide

/-- `u` is the state V-E1 ends in with CRC_LEN = FLEN - 2 = 23 set. -/
theorem witness_CrcBufOfEncodedFrameIsItsChecksum :
    announce.cfg.legal = true ∧ exec .encode announce = .next (encodedState announce) ∧
    (encodedState announce).regs.err = errValue .ok ∧
    (withCrcRange 0 23 (encodedState announce)).cfg = (encodedState announce).cfg ∧
    (withCrcRange 0 23 (encodedState announce)).fb = (encodedState announce).fb ∧
    (withCrcRange 0 23 (encodedState announce)).epoch = (encodedState announce).epoch ∧
    (withCrcRange 0 23 (encodedState announce)).regs.crcOff = 0 ∧
    (withCrcRange 0 23 (encodedState announce)).regs.crcLen = (encodedState announce).regs.flen - 2 := by
  exact ⟨by decide, witness_EventIdsCountUp.1, witness_EventIdsCountUp.2.1, rfl, rfl, rfl, rfl, by decide⟩

/-! ### Witnesses: registers, the bus, resets -/

theorem witness_SoftResetRestoresEveryRegister : (0x00000002 : Word).getLsbD 1 = true := by decide

/-- V-X9: an ENCODE is pending; its last output byte is the last byte of FB. -/
theorem witness_SoftResetKeepsFrameBytes :
    (0x00000002 : Word).getLsbD 1 = true ∧
    (acceptCmd (encodeCmd .encode) largest).pend = some (encodeCmd .encode) ∧
    EncodeOutput (acceptCmd (encodeCmd .encode) largest) 1023 ∧ 1023 < largest.cfg.bufSize :=
  ⟨by decide, rfl, .inr (.inr (by decide)), by decide⟩

theorem witness_PowerOnResetRestoresTheBlock :
    ({ State.reset with turns := [.powerOnReset, .host] } : State).turns = .powerOnReset :: [.host] := rfl

/-- The first and the last register, and one past the last. -/
theorem witness_LegalWordOffsetsAreTheRegisters :
    regAt 0x0000 = some .ctrl ∧ regAt 0x0064 = some .rxRsv ∧ regAt 0x0068 = none ∧ legal4 0x0068 = false := by
  decide

theorem witness_InputRegisterWriteReadsBack : regIsInput .flen = true ∧ busy State.reset = false := by decide

theorem witness_ReadOnlyRegisterWriteIsIgnored : RegName.rxRsv ∈ [.csumCalc, .csumRx] ++ rxRegs := by decide

theorem witness_FrameByteWriteReadsBack :
    1023 < State.reset.cfg.bufSize ∧ State.reset.cfg.legal = true ∧ busy State.reset = false := by
  decide

/-- Both clauses: V-B1, the first offset past the registers; V-B4, the offset before FB, and V-B5. -/
theorem witness_BusErrorChangesNothing :
    (0x0002 : Half).toNat % 4 ≠ 0 ∧ 0x0064 < (0x0068 : Half).toNat ∧ (0x7FFF : Half).toNat < 0x8000 ∧
    0x8000 + State.reset.cfg.bufSize ≤ (0x8400 : Half).toNat := by
  decide

/-- The host stands at a write line; both kinds of write have a next state with BUSY = 0 and the fault with BUSY = 1; the
first and the last FB byte can be read with BUSY = 0. -/
theorem witness_ReadsAndBranchesLeaveTheBlock :
    (hostAt (.write4 0x000C 0x19)).host.prog[(hostAt (.write4 0x000C 0x19)).host.pc]? = some (.write4 0x000C 0x19) ∧
    nextSat (fun t => t.regs.flen == 0x19) (memWrite4 0x000C 0x19 State.reset) = true ∧
    nextSat (fun t => fbByte t 1023 == 0x19) (memWrite1 0x83FF 0x19 State.reset) = true ∧
    memWrite4 0x000C 0x19 (pending 0x00000002) = .fault (.hazardWriteWhileBusy 0x000C) ∧
    memWrite1 0x83FF 0x19 (pending 0x00000002) = .fault (.hazardWriteWhileBusy 0x83FF) ∧
    busy State.reset = false ∧ 0 < State.reset.cfg.bufSize ∧ 1023 < State.reset.cfg.bufSize ∧
    State.reset.cfg.legal = true :=
  ⟨rfl, by decide, by decide, rfl, rfl, rfl, by decide, by decide, by decide⟩

theorem witness_CmdWriteIsAcceptedOrDropped :
    busy State.reset = false ∧ busy (pending 0x00000001) = true := by
  decide

theorem witness_StatusWriteClearsOnlyWrittenOnes :
    (0x00000102 : Word).getLsbD 1 = true ∧ (0x00000102 : Word).getLsbD 8 = true := by
  decide

theorem witness_IrqFollowsEnableAndDone : (0x00000001 : Word).getLsbD 1 = false := by decide

/-- BUSY = 1, with CMD and FLEN among the free registers and the last FB byte; and BUSY = 0. -/
theorem witness_ReadsWhileBusyAreFree :
    busy (pending 0x00000001) = true ∧ RegName.cmd ∉ [.ctrl, .status] ∧ RegName.flen ∉ [.ctrl, .status] ∧
    1023 < (pending 0x00000001).cfg.bufSize ∧ (pending 0x00000001).cfg.legal = true ∧ busy State.reset = false := by
  decide

theorem witness_WriteWhileBusyFaults :
    busy (pending 0x00000002) = true ∧ 1023 < (pending 0x00000002).cfg.bufSize ∧
    (pending 0x00000002).cfg.legal = true := by
  decide

/-! ### Witnesses: hazards, invariants, whole-machine rules -/

/-- A host that moves while a command is pending, with one line to perform. -/
def racing (w : Word) (line : Line) : State := { (pending w).withProgram [line] with turns := [.host] }

/-- Both kinds of hazard. -/
theorem witness_OnlyTheHazardStopsAStep :
    step (racing 0x00000002 (.write4 0x000C 0x19)) = .fault (.hazardWriteWhileBusy 0x000C) ∧
    step (racing 0x00000002 (.write1 0x8000 0x19)) = .fault (.hazardWriteWhileBusy 0x8000) :=
  ⟨rfl, rfl⟩

/-- A state with a command pending meets the invariant, and steps. -/
theorem witness_EveryStepKeepsTheInvariant :
    (pending 0x00000010).Inv ∧
    step (pending 0x00000010) = .next (complete .ok (setCrc 0xFFFF (takeTurn (pending 0x00000010)))) :=
  ⟨⟨by decide, by decide, by decide, by decide, by decide, by decide⟩, rfl⟩

/-- DONE rises. -/
theorem witness_DoneRisesOnlyByCompletion :
    (pending 0x00000000).regs.done = false ∧
    step (pending 0x00000000) = .next (complete .ok (takeTurn (pending 0x00000000))) ∧
    (complete .ok (takeTurn (pending 0x00000000))).regs.done = true :=
  ⟨rfl, rfl, rfl⟩

/-- EVT changes by each of its three writers. -/
theorem witness_EvtHasThreeWriters :
    nextSat (fun t => t.regs.evt != announce.regs.evt) (step (engineNext (acceptCmd 0x00000001 announce))) = true ∧
    nextSat (fun t => t.regs.evt != State.reset.regs.evt) (step (hostAt (.write4 0x0014 0xFFFF))) = true ∧
    nextSat (fun t => t.regs.evt != 5)
      (step (withRegs { Regs.reset with evt := 5 } (hostAt (.write4 0x0000 0x00000002)))) = true := by
  decide

/-- RX_EVT changes by a DECODE and by a reset. -/
theorem witness_ReceiveRegistersHaveTwoWriters :
    RegName.rxEvt ∈ rxRegs ∧
    nextSat (fun t => regValue t .rxEvt != regValue received .rxEvt)
      (step (engineNext (acceptCmd 0x00000002 received))) = true ∧
    nextSat (fun t => regValue t .rxEvt != 9)
      (step (withRegs { Regs.reset with rxEvt := 9 } (hostAt (.write4 0x0000 0x00000002)))) = true := by
  decide

/-- FB changes by an ENCODE and by a host write. -/
theorem witness_FrameBytesHaveFourWriters :
    nextSat (fun t => fbByte t 0 != 0x00)
      (step (engineNext (acceptCmd 0x00000001 (fbWrite 0 0x00 announce)))) = true ∧
    nextSat (fun t => fbByte t 0 != 0x00) (step (fbWrite 0 0x00 (hostAt (.write1 0x8000 0x01)))) = true := by
  decide

theorem witness_IdleBlockKeepsItsState :
    State.reset.pend = none ∧ State.reset.host.prog.length ≤ State.reset.host.pc ∧ resetMoves State.reset = false := by
  decide

theorem witness_RaceAdmitsBothOrders :
    (racing 0x00000003 (.write4 0x0008 0x00000000)).pend = some 0x00000003 ∧
    (racing 0x00000003 (.write4 0x0008 0x00000000)).host.prog[(racing 0x00000003 (.write4 0x0008 0)).host.pc]? =
      some (.write4 (regOffset .cmd) 0x00000000) := by
  decide

theorem witness_PendingCommandEndsWithinTheTurns : (pending 0x00000001).pend = some 0x00000001 := rfl

end Sys2Proof.Tests
end

/-! SUPPORT. The registers, what a step can do, and the invariant: lemmas first, then the obligations on the state
(10_state.md). -/

namespace Sys2Proof.Machine

variable {s t : State}

/-! ### Register values and flags -/

/-- Every register but STATUS reads alike when the register bits differ in DONE, ERR and OVR alone (R25). -/
theorem regsKept_status_of_flags {done ovr : Bool} {err : BitVec 4}
    (h : t.regs = { s.regs with done := done, err := err, ovr := ovr }) : RegsKept [.status] s t := by
  intro r hr
  cases r
  case status => simp at hr
  all_goals simp only [regValue, ctrlWord, h]

/-- Every register but CTRL reads alike when the register bits differ in IE alone (R24). -/
theorem regsKept_ctrl_of_ie {ie : Bool} (h : t.regs = { s.regs with ie := ie }) (hpend : t.pend = s.pend) :
    RegsKept [.ctrl] s t := by
  intro r hr
  cases r
  case ctrl => simp at hr
  all_goals simp only [regValue, statusWord, busy, h, hpend]

/-- The mask of the low `n` bits of a word, in which rule R22 gives the used bits of all registers but CTRL and STATUS. -/
def lowMask (n : Nat) : Word := (BitVec.allOnes n).setWidth 32

theorem getLsbD_lowMask (n k : Nat) : (lowMask n).getLsbD k = (decide (k < 32) && decide (k < n)) := by
  simp [lowMask]

theorem setWidth_and_lowMask (n : Nat) (v : Word) : (v &&& lowMask n).setWidth n = v.setWidth n := by
  apply BitVec.eq_of_getLsbD_eq
  intro k hk
  by_cases hk32 : k < 32
  · simp [getLsbD_lowMask, hk, hk32]
  · simp [hk, BitVec.getLsbD_of_ge v k (by omega)]

theorem setWidth_setWidth_eq_and_lowMask (n : Nat) (v : Word) : (v.setWidth n).setWidth 32 = v &&& lowMask n := by
  apply BitVec.eq_of_getLsbD_eq
  intro k hk
  rw [BitVec.getLsbD_and, getLsbD_lowMask, BitVec.getLsbD_setWidth, BitVec.getLsbD_setWidth]
  simp [hk, Bool.and_comm]

theorem setWidth_and_not_lowMask {n : Nat} (x : BitVec n) : x.setWidth 32 &&& ~~~ lowMask n = 0 := by
  apply BitVec.eq_of_getLsbD_eq
  intro k hk
  rw [BitVec.getLsbD_and, BitVec.getLsbD_not, getLsbD_lowMask, BitVec.getLsbD_setWidth]
  by_cases hkn : k < n
  · simp [hk, hkn]
  · simp [BitVec.getLsbD_of_ge x k (by omega)]

/-- A register other than CTRL and STATUS reads as one field from bit 0 up, of the width rule R22 gives. -/
theorem regValue_eq_field (s : State) (r : RegName) (hctrl : r ≠ .ctrl) (hstatus : r ≠ .status) :
    ∃ (n : Nat) (x : BitVec n), regValue s r = x.setWidth 32 ∧ regUsedBits r = lowMask n := by
  cases r
  case ctrl => exact absurd rfl hctrl
  case status => exact absurd rfl hstatus
  case cmd => exact ⟨32, 0, rfl, rfl⟩
  case txHdr | rxHdr => exact ⟨24, _, rfl, rfl⟩
  case txSidLo | txRidLo | rxSidLo | rxRidLo => exact ⟨32, _, (BitVec.setWidth_eq _).symm, rfl⟩
  all_goals exact ⟨16, _, rfl, rfl⟩

/-- STATUS bit by bit (R25). -/
theorem getLsbD_statusWord (s : State) (k : Nat) : (statusWord s).getLsbD k =
    if k = 0 then busy s else if k = 1 then s.regs.done else if 4 ≤ k ∧ k ≤ 7 then s.regs.err.getLsbD (k - 4)
    else if k = 8 then s.regs.ovr else false := by
  simp only [statusWord, BitVec.getLsbD_append, BitVec.getLsbD_zero, BitVec.getLsbD_ofBool]
  rcases Nat.lt_or_ge k 9 with hk | hk
  · interval_cases k <;> simp
  · simp (disch := omega) only [if_neg]

/-- The reserved bits of a register read 0 (R23). -/
theorem regValue_and_not_used (s : State) (r : RegName) : regValue s r &&& ~~~ regUsedBits r = 0 := by
  by_cases hctrl : r = .ctrl
  · subst hctrl
    cases hie : s.regs.ie <;> simp [regValue, ctrlWord, regUsedBits, hie]
  by_cases hstatus : r = .status
  · subst hstatus
    apply BitVec.eq_of_getLsbD_eq
    intro k hk
    rw [BitVec.getLsbD_and, regValue, getLsbD_statusWord]
    interval_cases k <;> simp [regUsedBits]
  · obtain ⟨n, x, hvalue, hused⟩ := regValue_eq_field s r hctrl hstatus
    rw [hvalue, hused, setWidth_and_not_lowMask]

/-- With BUSY = 0 every register reads its own value (70_reset_and_hazards.md R271). -/
theorem readRegValue_of_idle (h : busy s = false) (r : RegName) : readRegValue s r = regValue s r := by
  rcases readRegValue_cases s r with ⟨_, hread⟩ | ⟨hbusy, _⟩
  · exact hread
  · exact absurd (h.symm.trans hbusy) Bool.false_ne_true

/-! ### Writes of registers -/

/-- A write at a register's offset is the hazard or the register's rule (20_memory.md R77, R270). -/
theorem memWrite4_regOffset (r : RegName) (v : Word) (s : State) :
    memWrite4 (regOffset r) v s =
      if regIsInput r && busy s then .fault (.hazardWriteWhileBusy (regOffset r))
      else .next (respond .writeOk (writeReg r v s)) := by
  simp [memWrite4]

/-- A register whose write is no ordinary store keeps nothing of it in its field (R22, R44). -/
theorem storeReg_of_not_input {r : RegName} (hr : regIsInput r = false) (v : Word) (g : Regs) :
    storeReg r v g = g := by
  cases r
  case flen | plen | evt | crc | crcOff | crcLen => cases hr
  case txPre | txSidHi | txSidLo | txRidHi | txRidLo | txHdr => cases hr
  all_goals rfl

/-- An ordinary store stores the used bits of its register alone (R23, R44). -/
theorem storeReg_and_used (r : RegName) (v : Word) (g : Regs) :
    storeReg r (v &&& regUsedBits r) g = storeReg r v g := by
  have h16 : (v &&& 0x0000FFFF).setWidth 16 = v.setWidth 16 := setWidth_and_lowMask 16 v
  have h24 : (v &&& 0x00FFFFFF).setWidth 24 = v.setWidth 24 := setWidth_and_lowMask 24 v
  have h32 : v &&& 0xFFFFFFFF = v := BitVec.and_allOnes
  cases r <;> simp only [storeReg, regUsedBits, h16, h24, h32]

/-- A write of a register does what the same write with its reserved bits cleared does (R23). -/
theorem writeReg_and_used (r : RegName) (v : Word) (s : State) :
    writeReg r (v &&& regUsedBits r) s = writeReg r v s := by
  cases r
  case ctrl => simp [writeReg, writeCtrl, regUsedBits]
  case status => simp [writeReg, clearStatus, regUsedBits]
  case cmd => exact congrArg (writeCmd · s) BitVec.and_allOnes
  all_goals exact congrArg (fun g => { s with regs := g }) (storeReg_and_used _ v s.regs)

/-- What each register reads as after an ordinary store: the used bits of the written word in the register stored, and
no change in any other (R44). -/
theorem regValue_storeReg (r r' : RegName) (v : Word) (s : State) :
    regValue { s with regs := storeReg r v s.regs } r' =
      if r' = r ∧ regIsInput r = true then v &&& regUsedBits r else regValue s r' := by
  by_cases hin : regIsInput r = true
  · by_cases hr : r' = r
    · rw [if_pos ⟨hr, hin⟩, hr]
      cases r
      case txHdr => exact setWidth_setWidth_eq_and_lowMask 24 v
      case txSidLo | txRidLo => exact BitVec.and_allOnes.symm
      case flen | plen | evt | crc | crcOff | crcLen | txPre | txSidHi | txRidHi =>
        exact setWidth_setWidth_eq_and_lowMask 16 v
      all_goals cases hin
    · rw [if_neg (fun h => hr h.1)]
      -- Of the pairs of registers the equal ones contradict `hr`; in the others the field read is not the one stored.
      cases r <;> cases r' <;> first | rfl | exact absurd rfl hr
  · rw [if_neg (fun h => hin h.2), storeReg_of_not_input (by simpa using hin)]

theorem storeReg_evt (r : RegName) (v : Word) (g : Regs) :
    (storeReg r v g).evt = if r = .evt then v.setWidth 16 else g.evt := by
  cases r <;> rfl

@[simp] theorem storeReg_done (r : RegName) (v : Word) (g : Regs) : (storeReg r v g).done = g.done := by
  cases r <;> rfl

@[simp] theorem storeReg_err (r : RegName) (v : Word) (g : Regs) : (storeReg r v g).err = g.err := by
  cases r <;> rfl

/-- No read-only register is one whose write has an effect (R22). -/
theorem not_written_of_readOnly : ∀ r ∈ [.csumCalc, .csumRx] ++ rxRegs,
    regIsInput r = false ∧ r ≠ .ctrl ∧ r ≠ .status ∧ r ≠ .cmd := by
  decide

/-- A write of a read-only register changes nothing (R22). -/
theorem writeReg_of_readOnly {r : RegName} (hr : r ∈ [.csumCalc, .csumRx] ++ rxRegs) (v : Word) (s : State) :
    writeReg r v s = s := by
  obtain ⟨hin, hctrl, hstatus, hcmd⟩ := not_written_of_readOnly r hr
  rcases writeReg_cases r v s with ⟨h, _⟩ | ⟨h, _⟩ | ⟨h, _⟩ | ⟨h, _⟩ | ⟨h, _⟩ | ⟨_, _, _, hw⟩
  · exact absurd h hctrl
  · exact absurd h hctrl
  · exact absurd h hstatus
  · exact absurd h hcmd
  · exact absurd h hcmd
  · rw [hw, storeReg_of_not_input hin]

/-- An input register is written by an ordinary store (R44). -/
theorem writeReg_of_input {r : RegName} (hr : regIsInput r = true) (v : Word) (s : State) :
    writeReg r v s = { s with regs := storeReg r v s.regs } := by
  cases r
  case ctrl | status | cmd => cases hr
  all_goals rfl

/-! ### FB after a soft reset and after an ENCODE -/

/-- A soft reset keeps every FB byte that no aborted ENCODE may have written (42_control.md R206). -/
theorem fbByte_softReset (s : State) (j : Nat) (hj : ¬ (encodePending s = true ∧ EncodeOutput s j)) :
    fbByte (softReset s) j = fbByte s j := by
  rcases softReset_cases s with ⟨hp, hs⟩ | ⟨_, hs⟩
  · have hout : j ∉ encodeOutputs s := by
      intro hmem
      simp only [encodeOutputs, List.mem_append, List.mem_range, List.mem_cons, List.not_mem_nil, or_false] at hmem
      exact hj ⟨hp, hmem⟩
    calc fbByte (softReset s) j
        = fbByte (fbDraw (encodeOutputs s) s) j := fbByte_congr (by rw [hs]) (by rw [hs]) j
      _ = fbByte s j := fbByte_fbDraw (encodeOutputs s) s j hout
  · exact fbByte_congr (by rw [hs]) (by rw [hs]) j

/-- A successful ENCODE keeps every FB byte outside its output bytes (40_framer.md R145). -/
theorem fbByte_encodedState_of_not_output (s : State) (j : Nat) (hj : ¬ EncodeOutput s j) :
    fbByte (encodedState s) j = fbByte s j := by
  simp only [EncodeOutput, not_or] at hj
  obtain ⟨hheader, hhi, hlo⟩ := hj
  rw [fbByte_encodedState, fbByte_writeFrame, if_neg hhi, if_neg hlo, fbByte_writeHeader, if_neg hheader]

/-- A legal FB offset is that of its index (20_memory.md R70). -/
theorem toNat_eq_of_legal1 {c : Config} {addr : Half} (h : legal1 c addr = true) :
    addr.toNat = 0x8000 + fbIndex addr := by
  simp only [legal1, Bool.and_eq_true, decide_eq_true_eq] at h
  unfold fbIndex
  omega

/-! ### What a step can do -/

/-- The states a command can end in: no write but STATUS, the frame of a successful ENCODE, a new CRC, the checksums of a
failed DECODE, or the fields of a successful one. -/
theorem exec_next {i : Instr} (h : exec i s = .next t) :
    (∃ code, t = complete code s) ∨
    (i = .encode ∧ s.regs.plen.toNat ≤ s.cfg.maxPayload ∧ t = encodedState s) ∨
    (∃ c, t = complete .ok (setCrc c s)) ∨
    (i = .decode ∧ ∃ code, t = complete code (recordChecksums s)) ∨
    (i = .decode ∧ t = complete .ok (publishFields (recordChecksums s))) := by
  cases i with
  | nop => exact .inl ⟨.ok, (Host.Outcome.next.inj h).symm⟩
  | encode =>
    rcases execEncode_cases s with ⟨_, he⟩ | ⟨hfit, he⟩
    · exact .inl ⟨_, Host.Outcome.next.inj (h.symm.trans he)⟩
    · exact .inr (.inl ⟨rfl, hfit, Host.Outcome.next.inj (h.symm.trans he)⟩)
  | decode =>
    rcases execDecode_cases s with ⟨_, he⟩ | ⟨_, he⟩ | ⟨_, _, ⟨_, he⟩ | ⟨_, _, he⟩ | ⟨_, _, he⟩⟩
    · exact .inl ⟨_, Host.Outcome.next.inj (h.symm.trans he)⟩
    · exact .inl ⟨_, Host.Outcome.next.inj (h.symm.trans he)⟩
    · exact .inr (.inr (.inr (.inl ⟨rfl, _, Host.Outcome.next.inj (h.symm.trans he)⟩)))
    · exact .inr (.inr (.inr (.inl ⟨rfl, _, Host.Outcome.next.inj (h.symm.trans he)⟩)))
    · exact .inr (.inr (.inr (.inr ⟨rfl, Host.Outcome.next.inj (h.symm.trans he)⟩)))
  | crcInit => exact .inr (.inr (.inl ⟨_, (Host.Outcome.next.inj h).symm⟩))
  | crcByte d => exact .inr (.inr (.inl ⟨_, (Host.Outcome.next.inj h).symm⟩))
  | crcBuf =>
    rcases execCrcBuf_cases s with ⟨_, he⟩ | ⟨_, he⟩
    · exact .inl ⟨_, Host.Outcome.next.inj (h.symm.trans he)⟩
    · exact .inr (.inr (.inl ⟨_, Host.Outcome.next.inj (h.symm.trans he)⟩))

/-- What a step that answers a next state is: one that leaves the block alone, the host's write of a register or of an
FB byte, the engine's command, its completion of an illegal word, or a reset pulse (10_state.md R20). -/
theorem step_next (h : step s = .next t) :
    SameBlock s t ∨
    (∃ r v, hostMoves s = some (.write4 (regOffset r) v) ∧ (regIsInput r && busy s) = false ∧
      t = hostAdvance (respond .writeOk (writeReg r v (takeTurn s)))) ∨
    (∃ addr v, hostMoves s = some (.write1 addr v) ∧ legal1 s.cfg addr = true ∧ busy s = false ∧
      t = hostAdvance (respond .writeOk (fbWrite (fbIndex addr) v (takeTurn s)))) ∨
    (∃ i, engineMoves s = some i ∧ exec i (takeTurn s) = .next t) ∨
    (∃ w e, nextTurn s = .engine ∧ s.pend = some w ∧ decodeCmd w = .error e ∧
      t = completeIllegal (takeTurn s)) ∨
    (resetMoves s = true ∧ t = powerOnReset (takeTurn s)) := by
  rcases step_cases s with ⟨hturn, hs⟩ | ⟨hturn, hs⟩ | ⟨hturn, hs⟩ <;> rw [hs] at h
  · have hline : hostMoves s = s.host.prog[s.host.pc]? := by rw [hostMoves, hturn]
    rcases hostStep_next h with hsame | ⟨addr, v, r, hw, hr, hfree, ht⟩ | ⟨addr, v, hw, hl, hidle, ht⟩
    · exact .inl hsame
    · exact .inr (.inl ⟨r, v, by rw [hline, regOffset_of_regAt hr]; exact hw, hfree, ht⟩)
    · exact .inr (.inr (.inl ⟨addr, v, hline.trans hw, hl, hidle, ht⟩))
  · rcases engineStep_cases (takeTurn s) with ⟨_, he⟩ | ⟨w, i, hp, hd, he⟩ | ⟨w, e, hp, hd, he⟩ <;> rw [he] at h
    · cases h
      exact .inl ⟨rfl, rfl, rfl, rfl, rfl⟩
    · have hmove : engineMoves s = some i := by
        rw [takeTurn_pend] at hp
        simp [engineMoves, hturn, hp, hd, Except.toOption]
      exact .inr (.inr (.inr (.inl ⟨i, hmove, h⟩)))
    · exact .inr (.inr (.inr (.inr (.inl ⟨w, e, hturn, hp, hd, (Host.Outcome.next.inj h).symm⟩))))
  · exact .inr (.inr (.inr (.inr (.inr ⟨by simp [resetMoves, hturn], (Host.Outcome.next.inj h).symm⟩))))

/-- A listed turn is used up, and the move is counted (R85). -/
theorem takeTurn_of_listed {turn : Turn} {rest : List Turn} (h : s.turns = turn :: rest) :
    takeTurn s = { s with turns := rest, waited := s.waited + 1 } := by
  simp [takeTurn, h]

theorem nextTurn_of_listed {turn : Turn} {rest : List Turn} (h : s.turns = turn :: rest) : nextTurn s = turn := by
  simp [nextTurn, h]

/-- With no turn listed the engine moves exactly when a command has been pending for its free delay (R278). -/
theorem nextTurn_of_unlisted (h : s.turns = []) :
    nextTurn s = if s.pend ≠ none ∧ Config.engineDelay s.issued ≤ s.waited then .engine else .host := by
  simp only [nextTurn, h, busy, Bool.and_eq_true, Option.isSome_iff_ne_none, decide_eq_true_eq]

/-! ### What EVT, the receive registers and FB are after a register write -/

/-- A write of CTRL with SRST = 1 gives every register its reset value (42_control.md R205). -/
theorem regs_writeReg_of_srst {v : Word} (hv : v.getLsbD 1 = true) (s : State) :
    (writeReg .ctrl v s).regs = Regs.reset := by
  simp [writeReg, writeCtrl, hv]

/-- Without a soft reset, EVT is as it was or holds the bits written to it (R29, R44). -/
theorem evt_writeReg {r : RegName} {v : Word} (hreset : ¬ (r = .ctrl ∧ v.getLsbD 1 = true)) (s : State) :
    (writeReg r v s).regs.evt = if r = .evt then v.setWidth 16 else s.regs.evt := by
  rcases writeReg_cases r v s with
    ⟨hr, hv, _⟩ | ⟨rfl, _, hw⟩ | ⟨rfl, hw⟩ | ⟨rfl, _, hw⟩ | ⟨rfl, _, hw⟩ | ⟨_, _, _, hw⟩
  · exact absurd ⟨hr, hv⟩ hreset
  · rw [hw]; rfl
  · rw [hw]; rfl
  · rw [hw]; rfl
  · rw [hw]; rfl
  · rw [hw]; exact storeReg_evt r v s.regs

/-- A receive register reads as before when no register but the named ones has changed and it is none of them. -/
theorem regValue_rx_of_regsKept {named : List RegName} {r : RegName} (hkept : RegsKept named s t)
    (hnamed : ∀ r ∈ rxRegs, r ∉ named) (hr : r ∈ rxRegs) : regValue t r = regValue s r :=
  hkept r (hnamed r hr)

/-- Without a soft reset, no register write changes a receive register (R22, R46). -/
theorem regValue_rx_writeReg {r r' : RegName} {v : Word} (hreset : ¬ (r = .ctrl ∧ v.getLsbD 1 = true))
    (hr' : r' ∈ rxRegs) (s : State) : regValue (writeReg r v s) r' = regValue s r' := by
  rcases writeReg_cases r v s with
    ⟨hr, hv, _⟩ | ⟨_, _, hw⟩ | ⟨_, hw⟩ | ⟨_, _, hw⟩ | ⟨_, _, hw⟩ | ⟨_, _, _, hw⟩
  · exact absurd ⟨hr, hv⟩ hreset
  · rw [hw]
    exact regValue_rx_of_regsKept (regsKept_ctrl_of_ie rfl rfl) (by decide) hr'
  · rw [hw]
    exact regValue_rx_of_regsKept (regsKept_status_of_flags rfl) (by decide) hr'
  · rw [hw]
    exact regValue_rx_of_regsKept (regsKept_status_of_flags rfl) (by decide) hr'
  · rw [hw]
    exact regValue_rx_of_regsKept (regsKept_status_of_flags rfl) (by decide) hr'
  · obtain ⟨hin, _⟩ := not_written_of_readOnly r' (List.mem_append_right _ hr')
    rw [hw, regValue_storeReg, if_neg]
    rintro ⟨rfl, hin'⟩
    exact absurd hin' (by simp [hin])

/-- An FB byte a register write changes is one an aborted ENCODE may have written (R206). -/
theorem fbByte_writeReg {r : RegName} {v : Word} {s : State} {j : Nat}
    (hne : fbByte (writeReg r v s) j ≠ fbByte s j) :
    r = .ctrl ∧ v.getLsbD 1 = true ∧ encodePending s = true ∧ EncodeOutput s j := by
  rcases writeReg_cases r v s with
    ⟨hr, hv, hw⟩ | ⟨_, _, hw⟩ | ⟨_, hw⟩ | ⟨_, _, hw⟩ | ⟨_, _, hw⟩ | ⟨_, _, _, hw⟩ <;> rw [hw] at hne
  · exact ⟨hr, hv, not_not.mp fun hout => hne (fbByte_softReset s j hout)⟩
  all_goals exact absurd rfl hne

/-! ### The invariant through each operation -/

/-- The invariant speaks of the block, of the host's variables, and of the host having seen BUSY = 0 alone. -/
theorem inv_of_sameBlock (h : s.Inv) (hblock : SameBlock s t) (hvars : cellsWf t.host.vars)
    (hidle : t.host.idleSeen = true → s.pend = none) : t.Inv := by
  obtain ⟨hcfg, hregs, hpend, hfb, _⟩ := hblock
  refine ⟨?_, ?_, hvars, ?_, ?_, ?_⟩
  · rw [hcfg]; exact h.cfgLegal
  · rw [hcfg, hfb]; exact h.fbWf
  · rw [busy, hpend, hregs]; exact h.busyClean
  · rw [hregs]; exact h.errNamed
  · rw [hpend]; exact hidle

theorem inv_takeTurn (h : s.Inv) : (takeTurn s).Inv :=
  inv_of_sameBlock h ⟨rfl, rfl, rfl, rfl, rfl⟩ h.varsWf h.idleSeenIdle

theorem inv_respond (res : Response) (h : s.Inv) : (respond res s).Inv :=
  inv_of_sameBlock h ⟨rfl, rfl, rfl, rfl, rfl⟩ h.varsWf h.idleSeenIdle

theorem inv_hostGoto (n : Nat) (h : s.Inv) : (hostGoto n s).Inv :=
  inv_of_sameBlock h ⟨rfl, rfl, rfl, rfl, rfl⟩ h.varsWf h.idleSeenIdle

theorem inv_setHostVar (x : Nat) (v : Word) (h : s.Inv) : (setHostVar x v s).Inv :=
  inv_of_sameBlock h ⟨rfl, rfl, rfl, rfl, rfl⟩ (cellPut_wf _ _ _ h.varsWf) h.idleSeenIdle

/-- A STATUS read marks BUSY = 0 as seen only when no command is pending (20_memory.md R86). -/
theorem inv_memRead4 (addr : Half) (h : s.Inv) : (memRead4 addr s).Inv := by
  refine inv_of_sameBlock h (memRead4_sameBlock addr s) h.varsWf fun hseen => ?_
  have hcases : s.host.idleSeen = true ∨ busy s = false := by
    simp only [memRead4, respond_host, noteStatusRead_host, Bool.or_eq_true, Bool.and_eq_true,
      Bool.not_eq_true'] at hseen
    exact hseen.imp id And.right
  rcases hcases with hold | hidle
  · exact h.idleSeenIdle hold
  · exact (not_busy_iff s).mp hidle

theorem inv_memRead1 (addr : Half) (h : s.Inv) : (memRead1 addr s).Inv :=
  inv_of_sameBlock h (memRead1_sameBlock addr s) h.varsWf h.idleSeenIdle

theorem inv_fbWrite {i : Nat} (v : Byte) (hi : i < s.cfg.bufSize) (h : s.Inv) : (fbWrite i v s).Inv :=
  ⟨h.cfgLegal, cellPut_memory_wf _ _ _ _ hi h.fbWf, h.varsWf, h.busyClean, h.errNamed, h.idleSeenIdle⟩

/-- A write of the register bits that clears DONE or keeps it, and keeps ERR, keeps the invariant. -/
theorem inv_withRegs {g : Regs} (hdone : s.regs.done = false → g.done = false) (herr : g.err = s.regs.err)
    (h : s.Inv) : { s with regs := g }.Inv where
  cfgLegal := h.cfgLegal
  fbWf := h.fbWf
  varsWf := h.varsWf
  busyClean hb := ⟨hdone (h.busyClean hb).1, herr.trans (h.busyClean hb).2⟩
  errNamed := herr ▸ h.errNamed
  idleSeenIdle := h.idleSeenIdle

/-- An accepted CMD write clears DONE and ERR, and BUSY = 0 is then not yet seen (R26, R279). -/
theorem inv_acceptCmd (w : Word) (h : s.Inv) : (acceptCmd w s).Inv where
  cfgLegal := h.cfgLegal
  fbWf := h.fbWf
  varsWf := h.varsWf
  busyClean _ := ⟨rfl, rfl⟩
  errNamed := Nat.zero_le 7
  idleSeenIdle hseen := by cases hseen

/-- With no command pending and a code of rule R220 in ERR, what is left of the invariant is the form of FB and of the
host's variables. -/
theorem inv_of_idle (h : s.Inv) (hcfg : t.cfg = s.cfg) (hhost : t.host = s.host) (hpend : t.pend = none)
    (hfb : Memory.wf s.cfg.bufSize t.fb) (herr : t.regs.err.toNat ≤ 7) : t.Inv where
  cfgLegal := hcfg ▸ h.cfgLegal
  fbWf := hcfg ▸ hfb
  varsWf := hhost ▸ h.varsWf
  busyClean hb := by simp [busy, hpend] at hb
  errNamed := herr
  idleSeenIdle _ := hpend

theorem inv_softReset (h : s.Inv) : (softReset s).Inv :=
  inv_of_idle h (softReset_cfg s) (softReset_host s) rfl (softReset_memory_wf s h.fbWf) (Nat.zero_le 7)

theorem inv_powerOnReset (h : s.Inv) : (powerOnReset s).Inv :=
  inv_of_idle h rfl rfl rfl ⟨List.Pairwise.nil, fun _ hc => by cases hc⟩ (Nat.zero_le 7)

theorem errValue_le (code : ErrCode) : (errValue code).toNat ≤ 7 := by
  cases code <;> decide

/-- A command that leaves the parameter, the host and the form of FB alone keeps the invariant by completing (R222). -/
theorem inv_complete {u : State} (code : ErrCode) (h : s.Inv) (hcfg : u.cfg = s.cfg) (hhost : u.host = s.host)
    (hfb : Memory.wf s.cfg.bufSize u.fb) : (complete code u).Inv :=
  inv_of_idle h hcfg hhost rfl hfb (errValue_le code)

/-- A frame of a payload that is not too long fits into FB (40_framer.md R141). -/
theorem frame_fits (h : s.Inv) (hplen : s.regs.plen.toNat ≤ s.cfg.maxPayload) :
    s.regs.plen.toNat + 25 ≤ s.cfg.bufSize := by
  have hlegal := h.cfgLegal
  simp only [Config.legal, Bool.and_eq_true, decide_eq_true_eq] at hlegal
  unfold Config.maxPayload at hplen
  omega

theorem inv_encodedState (h : s.Inv) (hplen : s.regs.plen.toNat ≤ s.cfg.maxPayload) : (encodedState s).Inv := by
  have hothers := othersKept_encodedState s
  have hfb : (encodedState s).fb = (writeFrame s).fb := by rw [complete_fb]
  refine inv_of_idle h hothers.cfg hothers.host (complete_pend _ _) ?_ ?_
  · rw [hfb]
    exact writeFrame_memory_wf s (frame_fits h hplen) h.fbWf
  · rw [(completed_encodedState s).err]
    exact errValue_le .ok

theorem inv_exec {i : Instr} (h : s.Inv) (hexec : exec i s = .next t) : t.Inv := by
  rcases exec_next hexec with ⟨code, rfl⟩ | ⟨_, hplen, rfl⟩ | ⟨c, rfl⟩ | ⟨_, code, rfl⟩ | ⟨_, rfl⟩
  · exact inv_complete code h rfl rfl h.fbWf
  · exact inv_encodedState h hplen
  · exact inv_complete .ok h rfl rfl h.fbWf
  · exact inv_complete code h rfl rfl h.fbWf
  · exact inv_complete .ok h (publishFields_cfg _) (publishFields_host _) (by rw [publishFields_fb]; exact h.fbWf)

theorem inv_engineStep (h : s.Inv) (hstep : engineStep s = .next t) : t.Inv := by
  rcases engineStep_cases s with ⟨_, he⟩ | ⟨_, i, _, _, he⟩ | ⟨_, _, _, _, he⟩ <;> rw [he] at hstep
  · cases hstep
    exact h
  · exact inv_exec h hstep
  · cases hstep
    exact inv_complete .illegalCmd h rfl rfl h.fbWf

theorem inv_writeReg (r : RegName) (v : Word) (h : s.Inv) : (writeReg r v s).Inv := by
  rcases writeReg_cases r v s with
    ⟨_, _, hw⟩ | ⟨_, _, hw⟩ | ⟨_, hw⟩ | ⟨_, _, hw⟩ | ⟨_, _, hw⟩ | ⟨_, _, _, hw⟩ <;> rw [hw]
  · exact inv_softReset h
  · exact inv_withRegs id rfl h
  · exact inv_withRegs (fun hdone => by simp [clearStatus, hdone]) rfl h
  · exact inv_acceptCmd v h
  · exact inv_withRegs id rfl h
  · exact inv_withRegs (fun hdone => by rw [storeReg_done, hdone]) (storeReg_err r v _) h

theorem inv_memWrite4 {addr : Half} {v : Word} (h : s.Inv) (hw : memWrite4 addr v s = .next t) : t.Inv := by
  rcases memWrite4_cases addr v s with he | ⟨r, _, _, ⟨_, _, he⟩ | ⟨_, he⟩⟩ <;> rw [he] at hw <;> cases hw
  · exact inv_respond _ h
  · exact inv_respond _ (inv_writeReg r v h)

theorem inv_memWrite1 {addr : Half} {v : Byte} (h : s.Inv) (hw : memWrite1 addr v s = .next t) : t.Inv := by
  rcases memWrite1_cases addr v s with ⟨_, he⟩ | ⟨_, _, he⟩ | ⟨hl, _, he⟩ <;> rw [he] at hw <;> cases hw
  · exact inv_respond _ h
  · exact inv_respond _ (inv_fbWrite v (fbIndex_lt hl) h)

theorem inv_execLine {line : Line} (h : s.Inv) (hline : execLine line s = .next t) : t.Inv := by
  cases line with
  | read4 addr x =>
    cases hline
    exact inv_hostGoto _ (inv_setHostVar x _ (inv_memRead4 addr h))
  | read1 addr x =>
    cases hline
    exact inv_hostGoto _ (inv_setHostVar x _ (inv_memRead1 addr h))
  | write4 addr v =>
    obtain ⟨u, hu, rfl⟩ := advanceOutcome_next hline
    exact inv_hostGoto _ (inv_memWrite4 h hu)
  | write1 addr v =>
    obtain ⟨u, hu, rfl⟩ := advanceOutcome_next hline
    exact inv_hostGoto _ (inv_memWrite1 h hu)
  | bnz x k target =>
    rw [← Host.Outcome.next.inj hline]
    split
    · exact inv_hostGoto target h
    · exact inv_hostGoto _ h

theorem inv_hostStep (h : s.Inv) (hstep : hostStep s = .next t) : t.Inv := by
  rcases hostStep_cases s with ⟨_, he⟩ | ⟨line, _, he⟩ <;> rw [he] at hstep
  · cases hstep
    exact h
  · exact inv_execLine h hstep

theorem inv_step (h : s.Inv) (hstep : step s = .next t) : t.Inv := by
  rcases step_cases s with ⟨_, he⟩ | ⟨_, he⟩ | ⟨_, he⟩ <;> rw [he] at hstep
  · exact inv_hostStep (inv_takeTurn h) hstep
  · exact inv_engineStep (inv_takeTurn h) hstep
  · cases hstep
    exact inv_powerOnReset (inv_takeTurn h)

/-! ### The obligations -/

/-- Settles O53: the invariant goes through each operation a step is made of. -/
theorem everyStepKeepsTheInvariant : Obligations.EveryStepKeepsTheInvariant :=
  fun _ _ => inv_step

/-- Settles O34: the fields of STATUS, read off bit by bit. -/
theorem statusBitsStandWhereStated : Obligations.StatusBitsStandWhereStated :=
  getLsbD_statusWord

/-- Settles O35: a register is one field from bit 0 up, or CTRL or STATUS. -/
theorem reservedBitsReadZeroAndIgnoreWrites : Obligations.ReservedBitsReadZeroAndIgnoreWrites := by
  intro s r v
  refine ⟨regValue_and_not_used s r, ?_⟩
  rw [memWrite4_regOffset, memWrite4_regOffset, writeReg_and_used]

/-- Settles O41: the write is an ordinary store, and with BUSY = 0 a read returns the register's value. -/
theorem inputRegisterWriteReadsBack : Obligations.InputRegisterWriteReadsBack := by
  intro s r v hin hbusy
  have hw := writeReg_of_input hin v s
  have hvalue (r' : RegName) : regValue (respond .writeOk (writeReg r v s)) r' =
      if r' = r then v &&& regUsedBits r else regValue s r' := by
    rw [regValue_congr (respond_regs _ _) (respond_pend _ _), hw, regValue_storeReg]
    simp [hin]
  refine ⟨respond .writeOk (writeReg r v s), ?_, ?_, ?_, ?_⟩
  · rw [memWrite4_regOffset, hbusy, Bool.and_false, if_neg Bool.false_ne_true]
  · have hidle : busy (respond .writeOk (writeReg r v s)) = false := by rw [hw]; exact hbusy
    rw [read4Response_regOffset, readRegValue_of_idle hidle, hvalue, if_pos rfl]
  · intro r' hr'
    rw [hvalue, if_neg (by simpa using hr')]
  · rw [hw]
    exact ⟨rfl, rfl, rfl, rfl, rfl⟩

/-- Settles O42: a read-only register is no input register, so there is no hazard, and its write stores nothing. -/
theorem readOnlyRegisterWriteIsIgnored : Obligations.ReadOnlyRegisterWriteIsIgnored := by
  intro s r v hr
  obtain ⟨hin, _⟩ := not_written_of_readOnly r hr
  refine ⟨respond .writeOk s, ?_, ⟨rfl, rfl, rfl, rfl, rfl⟩, rfl⟩
  rw [memWrite4_regOffset, hin, Bool.false_and, if_neg Bool.false_ne_true, writeReg_of_readOnly hr]

/-- Settles O46: the two cases of a CMD write, told apart by BUSY. -/
theorem cmdWriteIsAcceptedOrDropped : Obligations.CmdWriteIsAcceptedOrDropped := by
  intro s w
  have hwrite : memWrite4 0x0008 w s = .next (respond .writeOk (writeCmd w s)) := memWrite4_regOffset .cmd w s
  rcases writeCmd_cases w s with ⟨hbusy, hw⟩ | ⟨hbusy, hw⟩ <;> rw [hw] at hwrite <;>
    refine ⟨_, hwrite, regsKept_status_of_flags rfl, rfl, rfl, fun h => ?_, fun h => ?_⟩
  · exact absurd (h.symm.trans hbusy) Bool.false_ne_true
  · exact ⟨rfl, rfl, rfl, rfl⟩
  · exact ⟨rfl, rfl, rfl, rfl, rfl⟩
  · exact absurd (hbusy.symm.trans h) Bool.false_ne_true

/-- Settles O55, by the kinds of step: of the register writes only one of EVT and the soft reset change EVT, and of the
commands only a successful ENCODE. -/
theorem evtHasThreeWriters : Obligations.EvtHasThreeWriters := by
  intro s t hstep hne
  rcases step_next hstep with hsame | ⟨r, v, hmove, _, rfl⟩ | ⟨_, _, _, _, _, rfl⟩ | ⟨i, hmove, hexec⟩ |
    ⟨_, _, _, _, _, rfl⟩ | ⟨hreset, rfl⟩
  · obtain ⟨_, hregs, _⟩ := hsame
    exact absurd (by rw [hregs]) hne
  · by_cases hsrst : r = .ctrl ∧ v.getLsbD 1 = true
    · obtain ⟨rfl, hv⟩ := hsrst
      exact .inr (.inr ⟨regs_writeReg_of_srst hv (takeTurn s), .inr ⟨v, hmove, hv⟩⟩)
    · have hevt := evt_writeReg hsrst (takeTurn s)
      by_cases hr : r = .evt
      · rw [if_pos hr] at hevt
        exact .inr (.inl ⟨v, hr ▸ hmove, hevt⟩)
      · rw [if_neg hr] at hevt
        exact absurd hevt hne
  · exact absurd rfl hne
  · rcases exec_next hexec with ⟨_, rfl⟩ | ⟨rfl, _, rfl⟩ | ⟨_, rfl⟩ | ⟨_, _, rfl⟩ | ⟨_, rfl⟩
    · exact absurd rfl hne
    · exact .inl ⟨hmove, (completed_encodedState _).err, by simp [encodeRegs]⟩
    · exact absurd rfl hne
    · exact absurd rfl hne
    · exact absurd (by simp [publishedRegs]) hne
  · exact absurd rfl hne
  · exact .inr (.inr ⟨rfl, .inl hreset⟩)

/-- Settles O56, by the kinds of step: of the register writes only the soft reset changes a receive register, and of the
commands only a successful DECODE. -/
theorem receiveRegistersHaveTwoWriters : Obligations.ReceiveRegistersHaveTwoWriters := by
  intro s t r hr hstep hne
  rw [← regValue_takeTurn s r] at hne
  rcases step_next hstep with hsame | ⟨q, v, hmove, _, rfl⟩ | ⟨_, _, _, _, _, rfl⟩ | ⟨i, hmove, hexec⟩ |
    ⟨_, _, _, _, _, rfl⟩ | ⟨hreset, rfl⟩
  · obtain ⟨_, hregs, hpend, _⟩ := hsame
    exact absurd (regValue_congr hregs hpend r) hne
  · by_cases hsrst : q = .ctrl ∧ v.getLsbD 1 = true
    · obtain ⟨rfl, hv⟩ := hsrst
      exact .inr ⟨regs_writeReg_of_srst hv (takeTurn s), .inr ⟨v, hmove, hv⟩⟩
    · have hkept := regValue_rx_writeReg hsrst hr (takeTurn s)
      exact absurd ((regValue_congr rfl rfl r).trans hkept) hne
  · exact absurd (regValue_congr rfl rfl r) hne
  · rcases exec_next hexec with ⟨_, rfl⟩ | ⟨_, _, rfl⟩ | ⟨_, rfl⟩ | ⟨_, _, rfl⟩ | ⟨rfl, rfl⟩
    · exact absurd (regValue_rx_of_regsKept (regsKept_complete _ _) (by decide) hr) hne
    · exact absurd (regValue_rx_of_regsKept (regsKept_encodedState _) (by decide) hr) hne
    · exact absurd (regValue_rx_of_regsKept (regsKept_complete_setCrc _ _ _) (by decide) hr) hne
    · exact absurd (regValue_rx_of_regsKept (regsKept_complete_recordChecksums _ _) (by decide) hr) hne
    · exact .inl ⟨hmove, (completed_complete_publishFields .ok _).err⟩
  · exact absurd (regValue_rx_of_regsKept (regsKept_complete _ _) (by decide) hr) hne
  · exact .inr ⟨rfl, .inl hreset⟩

/-- Settles O57, by the kinds of step: of the register writes only the soft reset that aborts an ENCODE changes FB, and
of the commands only a successful ENCODE. -/
theorem frameBytesHaveFourWriters : Obligations.FrameBytesHaveFourWriters := by
  intro s t j hstep hne
  rcases step_next hstep with hsame | ⟨r, v, hmove, _, rfl⟩ | ⟨addr, v, hmove, hlegal, _, rfl⟩ | ⟨i, hmove, hexec⟩ |
    ⟨_, _, _, _, _, rfl⟩ | ⟨hreset, _⟩
  · obtain ⟨_, _, _, hfb, hepoch⟩ := hsame
    exact absurd (fbByte_congr hfb hepoch j) hne
  · obtain ⟨rfl, hv, hpending, hout⟩ := fbByte_writeReg (s := takeTurn s) hne
    exact .inr (.inr (.inl ⟨v, hmove, hv, hpending, hout⟩))
  · rw [fbByte_hostAdvance, fbByte_respond, fbByte_fbWrite] at hne
    by_cases hj : fbIndex addr = j
    · refine .inr (.inl ⟨addr, v, hmove, ?_, ?_⟩)
      · rw [← hj, toNat_eq_of_legal1 hlegal]
      · rw [fbByte_hostAdvance, fbByte_respond, fbByte_fbWrite, if_pos hj]
    · exact absurd (if_neg hj) hne
  · rcases exec_next hexec with ⟨_, rfl⟩ | ⟨rfl, _, rfl⟩ | ⟨_, rfl⟩ | ⟨_, _, rfl⟩ | ⟨_, rfl⟩
    · exact absurd rfl hne
    · refine .inl ⟨hmove, (completed_encodedState _).err, ?_⟩
      exact not_not.mp fun hout => hne (fbByte_encodedState_of_not_output (takeTurn s) j hout)
    · exact absurd rfl hne
    · exact absurd rfl hne
    · exact absurd (by simp) hne
  · exact absurd rfl hne
  · exact .inr (.inr (.inr hreset))

/-- Settles O6: a listed turn says who moves; with none listed the free delay does. -/
theorem turnsDecideWhoMoves : Obligations.TurnsDecideWhoMoves := by
  intro s rest
  refine ⟨fun h => ?_, fun h hpend => ?_, fun h => ?_, fun h => ?_⟩
  · rw [step, nextTurn_of_listed h, takeTurn_of_listed h]
  · rw [step, nextTurn_of_listed h, takeTurn_of_listed h]
    simp only [engineStep, hpend]
  · rw [step, nextTurn_of_listed h, takeTurn_of_listed h]
  · have htake : takeTurn s = { s with waited := s.waited + 1 } := by rw [takeTurn, h, List.tail_nil, ← h]
    rw [step, nextTurn_of_unlisted h, ← htake]
    split_ifs <;> rfl

end Sys2Proof.Machine

/-! SUPPORT. The bus and the host's lines, and how long a command stays pending: lemmas first, then the obligations on
the memory (20_memory.md). -/

namespace Sys2Proof.Machine

variable {s t : State}

/-! ### Which accesses are legal -/

/-- `legal(addr, 4)` of rule R77 as numbers. -/
theorem legal4_iff (addr : Half) : legal4 addr = true ↔ addr.toNat % 4 = 0 ∧ addr.toNat ≤ 0x0064 := by
  simp only [legal4, Bool.and_eq_true, decide_eq_true_eq]

/-- `legal(addr, 1)` of rule R77 as numbers. -/
theorem legal1_iff (c : Config) (addr : Half) :
    legal1 c addr = true ↔ 0x8000 ≤ addr.toNat ∧ addr.toNat < 0x8000 + c.bufSize := by
  simp only [legal1, Bool.and_eq_true, decide_eq_true_eq]

/-- The registers stand one word apart, in the order of the list (R22). -/
theorem toNat_regOffset_regList : ∀ k : Fin regList.length, (regOffset regList[k]).toNat = 4 * k := by
  decide

theorem regAt_iff (addr : Half) (r : RegName) : regAt addr = some r ↔ regOffset r = addr :=
  ⟨regOffset_of_regAt, fun h => h ▸ regAt_regOffset r⟩

/-- A four-byte access is legal exactly at a register's offset (R76, R77). -/
theorem legal4_iff_regAt (addr : Half) : legal4 addr = true ↔ ∃ r, regAt addr = some r := by
  simp only [regAt_iff]
  constructor
  · intro h
    obtain ⟨haligned, hlast⟩ := (legal4_iff addr).mp h
    have hk : addr.toNat / 4 < regList.length := by
      have hlen : regList.length = 26 := rfl
      omega
    have hoffset := toNat_regOffset_regList ⟨addr.toNat / 4, hk⟩
    refine ⟨regList[addr.toNat / 4], BitVec.eq_of_toNat_eq ?_⟩
    exact hoffset.trans (Nat.mul_div_cancel' (Nat.dvd_of_mod_eq_zero haligned))
  · rintro ⟨r, rfl⟩
    exact legal4_regOffset r

/-! ### Bus errors (R79) -/

theorem sameBlock_respond (r : Response) (s : State) : SameBlock s (respond r s) :=
  ⟨rfl, rfl, rfl, rfl, rfl⟩

theorem memWrite4_of_illegal {addr : Half} (h : legal4 addr = false) (v : Word) (s : State) :
    memWrite4 addr v s = .next (respond (.writeError addr) s) := by
  simp [memWrite4, h]

theorem memWrite1_of_illegal {addr : Half} (h : legal1 s.cfg addr = false) (b : Byte) :
    memWrite1 addr b s = .next (respond (.writeError addr) s) := by
  simp [memWrite1, h]

theorem read4Response_of_illegal {addr : Half} (h : legal4 addr = false) (s : State) :
    read4Response addr s = .readError addr (Config.freeWord s.draws) := by
  simp [read4Response, h]

theorem read1Response_of_illegal {addr : Half} (h : legal1 s.cfg addr = false) :
    read1Response addr s = .readError addr ((Config.freeByte s.draws).setWidth 32) := by
  simp [read1Response, h]

theorem memRead4_resp (addr : Half) (s : State) : (memRead4 addr s).host.resp = some (read4Response addr s) := rfl

theorem memRead1_resp (addr : Half) (s : State) : (memRead1 addr s).host.resp = some (read1Response addr s) := rfl

/-! ### FB bytes over the bus (R70, R74) -/

/-- An index of FB lies inside the region of its offsets (00_scope.md R6). -/
theorem lt_of_legal {c : Config} (hc : c.legal = true) {i : Nat} (hi : i < c.bufSize) : i < 0x8000 := by
  simp only [Config.legal, Bool.and_eq_true, decide_eq_true_eq] at hc
  omega

theorem fbOffset_of_lt {i : Nat} (hi : i < 0x8000) : fbOffset i = BitVec.ofNat 16 (0x8000 + i) := by
  simp only [fbOffset, if_pos hi]

theorem fbIndex_fbOffset {i : Nat} (hi : i < 0x8000) : fbIndex (fbOffset i) = i := by
  have haddr : (fbOffset i).toNat = 0x8000 + i := by
    rw [fbOffset_of_lt hi, BitVec.toNat_ofNat, Nat.mod_eq_of_lt]
    omega
  unfold fbIndex
  omega

/-- With BUSY = 0 a write at the offset of an FB index writes that byte. -/
theorem memWrite1_fbOffset {i : Nat} (hc : s.cfg.legal = true) (hi : i < s.cfg.bufSize) (hidle : busy s = false)
    (v : Byte) : memWrite1 (fbOffset i) v s = .next (respond .writeOk (fbWrite i v s)) := by
  simp [memWrite1, (legal1_fbOffset hc i).mpr hi, hidle, fbIndex_fbOffset (lt_of_legal hc hi)]

/-- With BUSY = 0 a read at the offset of an FB index returns that byte. -/
theorem read1Response_fbOffset {i : Nat} (hc : s.cfg.legal = true) (hi : i < s.cfg.bufSize) (hidle : busy s = false) :
    read1Response (fbOffset i) s = .readOk ((fbByte s i).setWidth 32) := by
  simp [read1Response, (legal1_fbOffset hc i).mpr hi, hidle, fbIndex_fbOffset (lt_of_legal hc hi)]

/-! ### The host's lines (30_encoding.md R120) -/

theorem hostStep_of_line {line : Line} (h : s.host.prog[s.host.pc]? = some line) : hostStep s = execLine line s := by
  simp only [hostStep, h]

theorem hostVar_setHostVar (x y : Nat) (v : Word) (s : State) :
    hostVar (setHostVar x v s) y = if x = y then v else hostVar s y := by
  by_cases h : x = y <;> simp [hostVar, cellGet_cellPut, h]

/-- After a read has answered `u`: its data goes into the host variable, and the host goes on. -/
abbrev readDone (x : Nat) (u : State) : State := hostAdvance (setHostVar x (respData u) u)

/-- What a read line does, from what its bus transaction leaves: the response changes, and of the host's variables the
one that is read into (R78). -/
theorem readDone_effect {u : State} {res : Response} (x : Nat) (hblock : SameBlock s u)
    (hprog : u.host.prog = s.host.prog) (hpc : u.host.pc = s.host.pc) (hvars : u.host.vars = s.host.vars)
    (hresp : u.host.resp = some res) :
    SameBlock s (readDone x u) ∧ (readDone x u).host.prog = s.host.prog ∧
      (readDone x u).host.pc = s.host.pc + 1 ∧ (readDone x u).host.resp = some res ∧
      hostVar (readDone x u) x = respData (readDone x u) ∧
      ∀ y, y ≠ x → hostVar (readDone x u) y = hostVar s y := by
  have hvar (y : Nat) : hostVar (readDone x u) y = if x = y then respData u else hostVar u y :=
    hostVar_setHostVar x y (respData u) u
  refine ⟨hblock, hprog, congrArg (· + 1) hpc, hresp, ?_, fun y hy => ?_⟩
  · rw [hvar, if_pos rfl]
    rfl
  · rw [hvar, if_neg (Ne.symm hy), hostVar, hvars, hostVar]

/-- The branch goes to its target exactly when the bit is 1. -/
theorem execLine_bnz (x : Nat) (k : Fin 32) (target : Nat) (s : State) :
    execLine (.bnz x k target) s = .next (hostGoto
      (if (hostVar s x).getLsbD k.val then target else s.host.pc + 1) s) := by
  rw [execLine]
  split_ifs <;> rfl

/-- No register write moves the host in its program, the soft reset included (42_control.md R205). -/
theorem writeReg_pc (r : RegName) (v : Word) (s : State) : (writeReg r v s).host.pc = s.host.pc := by
  rcases writeReg_cases r v s with
    ⟨_, _, hw⟩ | ⟨_, _, hw⟩ | ⟨_, hw⟩ | ⟨_, _, hw⟩ | ⟨_, _, hw⟩ | ⟨_, _, _, hw⟩ <;> rw [hw]
  · rw [softReset_host]
  · rfl

theorem memWrite4_pc {addr : Half} {v : Word} (h : memWrite4 addr v s = .next t) : t.host.pc = s.host.pc := by
  rcases memWrite4_cases addr v s with hw | ⟨r, _, _, ⟨_, _, hw⟩ | ⟨_, hw⟩⟩ <;> rw [hw] at h <;> cases h
  · rfl
  · exact writeReg_pc r v s

theorem memWrite1_pc {addr : Half} {b : Byte} (h : memWrite1 addr b s = .next t) : t.host.pc = s.host.pc := by
  rcases memWrite1_cases addr b s with ⟨_, hw⟩ | ⟨_, _, hw⟩ | ⟨_, _, hw⟩ <;> rw [hw] at h <;> cases h <;> rfl

/-- A write line: the host stands at its next line after the write, or stops with the write's fault. -/
theorem advanceOutcome_write {o : Host.Outcome State Fault Refusal}
    (hpc : ∀ t, o = .next t → t.host.pc = s.host.pc) :
    (∀ t, o = .next t → advanceOutcome o = .next { t with host := { t.host with pc := s.host.pc + 1 } }) ∧
      ∀ f, o = .fault f → advanceOutcome o = .fault f := by
  refine ⟨fun t h => ?_, fun f h => ?_⟩
  · rw [h, ← hpc t h]
    rfl
  · rw [h]
    rfl

/-! ### How long a command stays pending (R85, 70_reset_and_hazards.md R278) -/

/-- The same command is still pending, and the moves to come and the counts of its delay are as they were. -/
structure StillPending (s t : State) : Prop where
  pend : t.pend = s.pend
  turns : t.turns = s.turns
  issued : t.issued = s.issued
  waited : t.waited = s.waited

/-- A move while a command is pending faults, ends the command, or leaves it pending as it was. -/
def FaultsOrEndsOrWaits (s : State) (o : Host.Outcome State Fault Refusal) : Prop :=
  (∃ f, o = .fault f) ∨ ∃ t, o = .next t ∧ (t.pend = none ∨ StillPending s t)

/-- A register write while a command is pending ends it, by the soft reset, or leaves it: a CMD write is dropped
(60_exceptions.md R225). -/
theorem writeReg_of_busy (hbusy : busy s = true) (r : RegName) (v : Word) :
    (writeReg r v s).pend = none ∨ StillPending s (writeReg r v s) := by
  rcases writeReg_cases r v s with
    ⟨_, _, hw⟩ | ⟨_, _, hw⟩ | ⟨_, hw⟩ | ⟨_, hidle, _⟩ | ⟨_, _, hw⟩ | ⟨_, _, _, hw⟩
  · exact .inl (by rw [hw, softReset_pend])
  · exact .inr (hw ▸ ⟨rfl, rfl, rfl, rfl⟩)
  · exact .inr (hw ▸ ⟨rfl, rfl, rfl, rfl⟩)
  · exact absurd (hidle.symm.trans hbusy) Bool.false_ne_true
  · exact .inr (hw ▸ ⟨rfl, rfl, rfl, rfl⟩)
  · exact .inr (hw ▸ ⟨rfl, rfl, rfl, rfl⟩)

theorem memWrite4_of_busy (hbusy : busy s = true) (addr : Half) (v : Word) :
    FaultsOrEndsOrWaits s (memWrite4 addr v s) := by
  rcases memWrite4_cases addr v s with hw | ⟨r, _, _, ⟨_, _, hw⟩ | ⟨_, hw⟩⟩
  · exact .inr ⟨_, hw, .inr ⟨rfl, rfl, rfl, rfl⟩⟩
  · exact .inl ⟨_, hw⟩
  · refine .inr ⟨_, hw, (writeReg_of_busy hbusy r v).imp id fun h => ?_⟩
    exact ⟨h.pend, h.turns, h.issued, h.waited⟩

theorem memWrite1_of_busy (hbusy : busy s = true) (addr : Half) (b : Byte) :
    FaultsOrEndsOrWaits s (memWrite1 addr b s) := by
  rcases memWrite1_cases addr b s with ⟨_, hw⟩ | ⟨_, _, hw⟩ | ⟨_, hidle, _⟩
  · exact .inr ⟨_, hw, .inr ⟨rfl, rfl, rfl, rfl⟩⟩
  · exact .inl ⟨_, hw⟩
  · exact absurd (hidle.symm.trans hbusy) Bool.false_ne_true

theorem FaultsOrEndsOrWaits.advanceOutcome {o : Host.Outcome State Fault Refusal} (h : FaultsOrEndsOrWaits s o) :
    FaultsOrEndsOrWaits s (advanceOutcome o) := by
  rcases h with ⟨f, rfl⟩ | ⟨t, rfl, hpend⟩
  · exact .inl ⟨f, rfl⟩
  · exact .inr ⟨_, rfl, hpend.imp id fun h => ⟨h.pend, h.turns, h.issued, h.waited⟩⟩

theorem execLine_of_busy (hbusy : busy s = true) (line : Line) : FaultsOrEndsOrWaits s (execLine line s) := by
  cases line with
  | read4 addr x => exact .inr ⟨_, rfl, .inr ⟨rfl, rfl, rfl, rfl⟩⟩
  | read1 addr x => exact .inr ⟨_, rfl, .inr ⟨rfl, rfl, rfl, rfl⟩⟩
  | write4 addr v => exact (memWrite4_of_busy hbusy addr v).advanceOutcome
  | write1 addr b => exact (memWrite1_of_busy hbusy addr b).advanceOutcome
  | bnz x k target => exact .inr ⟨_, execLine_bnz x k target s, .inr ⟨rfl, rfl, rfl, rfl⟩⟩

theorem hostStep_of_busy (hbusy : busy s = true) : FaultsOrEndsOrWaits s (hostStep s) := by
  rcases hostStep_cases s with ⟨_, hs⟩ | ⟨line, _, hs⟩ <;> rw [hs]
  · exact .inr ⟨s, rfl, .inr ⟨rfl, rfl, rfl, rfl⟩⟩
  · exact execLine_of_busy hbusy line

/-- Every command ends (60_exceptions.md R222). -/
theorem exec_ends (i : Instr) (s : State) : ∃ t, exec i s = .next t ∧ t.pend = none := by
  cases i with
  | nop | crcInit | crcByte d => exact ⟨_, rfl, rfl⟩
  | encode => rcases execEncode_cases s with ⟨_, he⟩ | ⟨_, he⟩ <;> exact ⟨_, he, rfl⟩
  | decode =>
    rcases execDecode_cases s with ⟨_, he⟩ | ⟨_, he⟩ | ⟨_, _, ⟨_, he⟩ | ⟨_, _, he⟩ | ⟨_, _, he⟩⟩ <;>
      exact ⟨_, he, rfl⟩
  | crcBuf => rcases execCrcBuf_cases s with ⟨_, he⟩ | ⟨_, he⟩ <;> exact ⟨_, he, rfl⟩

/-- After the engine's move no command is pending. -/
theorem engineStep_ends (s : State) : ∃ t, engineStep s = .next t ∧ t.pend = none := by
  rcases engineStep_cases s with ⟨hp, he⟩ | ⟨_, i, _, _, he⟩ | ⟨_, _, _, _, he⟩
  · exact ⟨s, he, hp⟩
  · rw [he]
    exact exec_ends i s
  · exact ⟨_, he, rfl⟩

/-- The moves before the engine's that the schedule still allows: the listed turns and what is left of the free delay
(log entries 4 and 16). -/
def movesLeft (s : State) : Nat := s.turns.length + (Config.engineDelay s.issued - s.waited)

/-- A host move while a command is pending uses up one of the moves left. -/
theorem movesLeft_takeTurn_lt (hbusy : busy s = true) (hturn : nextTurn s = .host) :
    movesLeft (takeTurn s) < movesLeft s := by
  unfold movesLeft
  rw [takeTurn_turns, takeTurn_issued, takeTurn_waited]
  rcases nextTurn_cases s with ⟨turn, rest, hlist, _⟩ | ⟨_, _, _, hengine⟩ | ⟨hnil, hwait, _⟩
  · rw [hlist, List.tail_cons, List.length_cons]
    omega
  · rw [hengine] at hturn
    cases hturn
  · have hlt : s.waited < Config.engineDelay s.issued :=
      hwait.resolve_left fun hidle => absurd (hidle.symm.trans hbusy) Bool.false_ne_true
    rw [hnil, List.tail_nil]
    omega

/-- A step while a command is pending faults, ends the command, or leaves fewer moves. -/
theorem step_of_busy (hbusy : busy s = true) :
    (∃ f, step s = .fault f) ∨
      ∃ t, step s = .next t ∧ (t.pend = none ∨ busy t = true ∧ movesLeft t < movesLeft s) := by
  rcases step_cases s with ⟨hturn, hs⟩ | ⟨_, hs⟩ | ⟨_, hs⟩ <;> rw [hs]
  · refine (hostStep_of_busy (s := takeTurn s) hbusy).imp id ?_
    rintro ⟨t, ht, hpend⟩
    refine ⟨t, ht, hpend.imp id fun h => ⟨?_, ?_⟩⟩
    · rw [busy, h.pend]
      exact hbusy
    · rw [movesLeft, h.turns, h.issued, h.waited]
      exact movesLeft_takeTurn_lt hbusy hturn
  · obtain ⟨t, ht, hpend⟩ := engineStep_ends (takeTurn s)
    exact .inr ⟨t, ht, .inl hpend⟩
  · exact .inr ⟨_, rfl, .inl rfl⟩

theorem run_succ_of_next (h : step s = .next t) (n : Nat) :
    Sys2Proof.core.run (n + 1) s = Sys2Proof.core.run n t := by
  have hcore : Sys2Proof.core.step s = .next t := h
  simp only [Host.Core.run, hcore]

theorem run_one_of_fault {f : Fault} (h : step s = .fault f) : Sys2Proof.core.run 1 s = .fault f := by
  have hcore : Sys2Proof.core.step s = .fault f := h
  simp only [Host.Core.run, hcore]

/-- By recursion on the moves left, which every step that neither faults nor ends the command makes fewer. -/
theorem pending_ends_within_movesLeft (s : State) (hbusy : busy s = true) :
    ∃ n, n ≤ movesLeft s + 1 ∧ ((∃ t : State, Sys2Proof.core.run n s = .next t ∧ t.pend = none) ∨
      ∃ f, Sys2Proof.core.run n s = .fault f) := by
  rcases step_of_busy hbusy with ⟨f, hf⟩ | ⟨t, ht, hpend | ⟨hbusy', hlt⟩⟩
  · exact ⟨1, by omega, .inr ⟨f, run_one_of_fault hf⟩⟩
  · exact ⟨1, by omega, .inl ⟨t, run_succ_of_next ht 0, hpend⟩⟩
  · obtain ⟨n, hn, hrun⟩ := pending_ends_within_movesLeft t hbusy'
    rw [← run_succ_of_next ht n] at hrun
    exact ⟨n + 1, by omega, hrun⟩
termination_by movesLeft s

/-! ### The obligations -/

/-- Settles O40: the registers stand one word apart from offset 0 up, and a register is found at its offset alone. -/
theorem legalWordOffsetsAreTheRegisters : Obligations.LegalWordOffsetsAreTheRegisters :=
  ⟨legal4_iff_regAt, regAt_iff, by decide⟩

/-- Settles O43: the write is that of the FB byte alone, and the block is idle after it too. -/
theorem frameByteWriteReadsBack : Obligations.FrameByteWriteReadsBack := by
  intro s i v hi hc hidle
  rw [← fbOffset_of_lt (lt_of_legal hc hi)]
  refine ⟨_, memWrite1_fbOffset hc hi hidle v, ?_, fun j hj => ?_, rfl, rfl, rfl⟩
  · rw [read1Response_fbOffset (s := respond .writeOk (fbWrite i v s)) hc hi hidle, fbByte_respond, fbByte_fbWrite,
      if_pos rfl]
  · rw [fbByte_respond, fbByte_fbWrite, if_neg (Ne.symm hj)]

/-- Settles O44: outside `legal` a write does nothing but respond, and a read's response is the error. -/
theorem busErrorChangesNothing : Obligations.BusErrorChangesNothing := by
  intro s addr v b
  refine ⟨fun h => ?_, fun h => ?_⟩
  · have hillegal : legal4 addr = false := by
      rw [Bool.eq_false_iff, ne_eq, legal4_iff]
      omega
    refine ⟨⟨_, memWrite4_of_illegal hillegal v s, sameBlock_respond _ s, rfl⟩, memRead4_sameBlock addr s, ?_⟩
    rw [memRead4_resp, read4Response_of_illegal hillegal]
  · have hillegal : legal1 s.cfg addr = false := by
      rw [Bool.eq_false_iff, ne_eq, legal1_iff]
      omega
    refine ⟨⟨_, memWrite1_of_illegal hillegal b, sameBlock_respond _ s, rfl⟩, memRead1_sameBlock addr s, ?_⟩
    rw [memRead1_resp, read1Response_of_illegal hillegal]

/-- Settles O45, by the kinds of line: a read line is its bus transaction and one variable, and no write moves the host
before the line goes on. -/
theorem readsAndBranchesLeaveTheBlock : Obligations.ReadsAndBranchesLeaveTheBlock := by
  intro s
  refine ⟨fun _ => hostStep_of_line, fun addr x => ?_, fun addr x => ?_, fun x k target => ?_, fun addr v => ?_,
    fun addr b => ?_, fun hidle => ⟨fun r => ?_, fun i hi hc => ?_⟩⟩
  · exact ⟨_, rfl, readDone_effect x (memRead4_sameBlock addr s) rfl rfl rfl (memRead4_resp addr s)⟩
  · exact ⟨_, rfl, readDone_effect x (memRead1_sameBlock addr s) rfl rfl rfl (memRead1_resp addr s)⟩
  · exact execLine_bnz x k target s
  · exact advanceOutcome_write fun _ => memWrite4_pc
  · exact advanceOutcome_write fun _ => memWrite1_pc
  · rw [read4Response_regOffset, readRegValue_of_idle hidle]
  · rw [← fbOffset_of_lt (lt_of_legal hc hi), read1Response_fbOffset hc hi hidle]

/-- Settles O60: every step of a pending command ends it, faults, or uses up one of the moves its schedule allows. -/
theorem pendingCommandEndsWithinTheTurns : Obligations.PendingCommandEndsWithinTheTurns := by
  intro s w hpend
  exact pending_ends_within_movesLeft s ((busy_iff s).mpr ⟨w, hpend⟩)

end Sys2Proof.Machine

/-! SUPPORT. The fields of a command word, the rows of the opcode map, the decoder against the encoder, and the header
of the frame ENCODE builds: lemmas first, then the obligations on the encoding (30_encoding.md). -/

namespace Sys2Proof

/-! ### The fields of a command word (R100) -/

/-- A word is its three fields, `{ RSVD, DATA8, OP }`. -/
theorem append_fields (w : Word) : cmdRsvd w ++ cmdData8 w ++ cmdOp w = w := by
  have hupper : cmdRsvd w ++ cmdData8 w = w.extractLsb' 8 24 :=
    BitVec.extractLsb'_append_extractLsb'_eq_extractLsb' rfl
  rw [hupper]
  exact BitVec.extractLsb'_append_extractLsb'

theorem cmdOp_append (rsvd : Half) (data8 op : Byte) : cmdOp (rsvd ++ data8 ++ op) = op :=
  BitVec.extractLsb'_append_eq_right

theorem cmdData8_append (rsvd : Half) (data8 op : Byte) : cmdData8 (rsvd ++ data8 ++ op) = data8 :=
  calc cmdData8 (rsvd ++ data8 ++ op)
      = (rsvd ++ data8).extractLsb' 0 8 := BitVec.extractLsb'_append_eq_of_le (Nat.le_refl 8)
    _ = data8 := BitVec.extractLsb'_append_eq_right

theorem cmdRsvd_append (rsvd : Half) (data8 op : Byte) : cmdRsvd (rsvd ++ data8 ++ op) = rsvd :=
  calc cmdRsvd (rsvd ++ data8 ++ op)
      = (rsvd ++ data8).extractLsb' 8 16 := BitVec.extractLsb'_append_eq_of_le (by decide)
    _ = rsvd := BitVec.extractLsb'_append_eq_left

/-! ### Commands and their words -/

/-- The per-command facts of `OneWordFormat`, for every command. -/
theorem oneWordFormat (i : Instr) : Laws.OneWordFormat.Statement i := by
  cases i with
  | nop => exact Laws.OneWordFormat.nop
  | encode => exact Laws.OneWordFormat.encode
  | decode => exact Laws.OneWordFormat.decode
  | crcInit => exact Laws.OneWordFormat.crcInit
  | crcByte d => exact Laws.OneWordFormat.crcByte d
  | crcBuf => exact Laws.OneWordFormat.crcBuf

theorem Instr.wf_eq_true (i : Instr) : i.wf = true := by
  obtain ⟨hwf, _⟩ := oneWordFormat i
  exact hwf

theorem cmdOp_encodeCmd (i : Instr) : cmdOp (encodeCmd i) = i.opcode := by
  obtain ⟨_, hop, _⟩ := oneWordFormat i
  exact hop

theorem cmdRsvd_encodeCmd (i : Instr) : cmdRsvd (encodeCmd i) = 0 := by
  obtain ⟨_, _, hrsvd⟩ := oneWordFormat i
  exact hrsvd

/-- The word of a command whose OP has format C0 is zero above its OP (R103). -/
theorem operandBits_encodeCmd_of_c0 {i : Instr} (h : i.opcode ∈ [0x00, 0x01, 0x02, 0x10, 0x12]) :
    (encodeCmd i).extractLsb' 8 24 = 0 := by
  cases i with
  | crcByte d => exact absurd h (by decide : ¬ (0x11 : Byte) ∈ [0x00, 0x01, 0x02, 0x10, 0x12])
  | nop | encode | decode | crcInit | crcBuf => decide

/-! ### The rows of the opcode map (R101) -/

/-- The mask of CRC_BYTE's row clears DATA8 and keeps the other fields. -/
theorem and_crcByte_mask (rsvd : Half) (data8 op : Byte) :
    (rsvd ++ data8 ++ op) &&& (0xFFFF00FF : Word) = rsvd ++ 0#8 ++ op := by
  have hmask : (0xFFFF00FF : Word) = BitVec.allOnes 16 ++ 0#8 ++ BitVec.allOnes 8 := by decide
  rw [hmask, BitVec.and_append, BitVec.and_append, BitVec.and_allOnes, BitVec.and_allOnes, BitVec.and_zero]

/-- CRC_BYTE's row selects exactly the words with its OP and RSVD = 0, whatever DATA8 is (R103). -/
theorem and_crcByte_mask_eq_iff (w : Word) :
    w &&& 0xFFFF00FF = 0x00000011 ↔ encodeCmd (.crcByte (cmdData8 w)) = w := by
  constructor
  · intro h
    rw [← append_fields w, and_crcByte_mask] at h
    have hrsvd : cmdRsvd w = 0 := (cmdRsvd_append _ _ _).symm.trans (congrArg cmdRsvd h)
    have hop : cmdOp w = 0x11 := (cmdOp_append _ _ _).symm.trans (congrArg cmdOp h)
    calc encodeCmd (.crcByte (cmdData8 w))
        = cmdRsvd w ++ cmdData8 w ++ cmdOp w := by rw [hrsvd, hop]; rfl
      _ = w := append_fields w
  · intro h
    rw [← h]
    exact and_crcByte_mask 0 (cmdData8 w) 0x11

/-- A row with a full mask selects exactly its match word, the word of its command. -/
theorem selects_full_mask_iff {row : OpcodeRow} {i : Instr} {w : Word} (hmask : row.mask = 0xFFFFFFFF)
    (hcommand : row.op.command w = i) (hword : encodeCmd i = row.matchWord) :
    row.selects w = true ↔ encodeCmd (row.op.command w) = w := by
  have hall : w &&& 0xFFFFFFFF = w := BitVec.and_allOnes
  rw [OpcodeRow.selects, hmask, hall, hcommand, hword, beq_iff_eq, eq_comm]

/-- A row selects a word exactly when the word is the encoding of the command the row reads from it. -/
theorem selects_iff_encodeCmd {row : OpcodeRow} (hrow : row ∈ opcodeMap) (w : Word) :
    row.selects w = true ↔ encodeCmd (row.op.command w) = w := by
  simp only [opcodeMap, List.mem_cons, List.not_mem_nil, or_false] at hrow
  rcases hrow with rfl | rfl | rfl | rfl | rfl | rfl
  · exact selects_full_mask_iff (i := .nop) rfl rfl (by decide)
  · exact selects_full_mask_iff (i := .encode) rfl rfl (by decide)
  · exact selects_full_mask_iff (i := .decode) rfl rfl (by decide)
  · exact selects_full_mask_iff (i := .crcInit) rfl rfl (by decide)
  · exact beq_iff_eq.trans (and_crcByte_mask_eq_iff w)
  · exact selects_full_mask_iff (i := .crcBuf) rfl rfl (by decide)

/-- The OP value of a row's command is that of the row's match word, whatever the operand is. -/
theorem opcode_command {row : OpcodeRow} (hrow : row ∈ opcodeMap) (w : Word) :
    (row.op.command w).opcode = cmdOp row.matchWord := by
  simp only [opcodeMap, List.mem_cons, List.not_mem_nil, or_false] at hrow
  rcases hrow with rfl | rfl | rfl | rfl | rfl | rfl <;> rfl

/-- A row selects only words that carry its own OP value. -/
theorem cmdOp_of_selects {row : OpcodeRow} (hrow : row ∈ opcodeMap) {w : Word} (h : row.selects w = true) :
    cmdOp w = cmdOp row.matchWord := by
  rw [← opcode_command hrow w, ← cmdOp_encodeCmd, (selects_iff_encodeCmd hrow w).mp h]

/-- No two rows share an OP value. -/
theorem row_eq_of_cmdOp_eq : ∀ r₁ ∈ opcodeMap, ∀ r₂ ∈ opcodeMap,
    cmdOp r₁.matchWord = cmdOp r₂.matchWord → r₁ = r₂ := by
  decide

theorem row_eq_of_selects {w : Word} {r₁ r₂ : OpcodeRow} (hr₁ : r₁ ∈ opcodeMap) (hr₂ : r₂ ∈ opcodeMap)
    (h₁ : r₁.selects w = true) (h₂ : r₂.selects w = true) : r₁ = r₂ :=
  row_eq_of_cmdOp_eq r₁ hr₁ r₂ hr₂ ((cmdOp_of_selects hr₁ h₁).symm.trans (cmdOp_of_selects hr₂ h₂))

/-- Every command has a row that reads it back from its word. -/
theorem exists_row_command_encodeCmd (i : Instr) : ∃ row ∈ opcodeMap, row.op.command (encodeCmd i) = i := by
  cases i with
  | nop => exact ⟨opcodeMap[0], List.getElem_mem (by decide), rfl⟩
  | encode => exact ⟨opcodeMap[1], List.getElem_mem (by decide), rfl⟩
  | decode => exact ⟨opcodeMap[2], List.getElem_mem (by decide), rfl⟩
  | crcInit => exact ⟨opcodeMap[3], List.getElem_mem (by decide), rfl⟩
  | crcByte d =>
    exact ⟨opcodeMap[4], List.getElem_mem (by decide), congrArg Instr.crcByte (cmdData8_append 0 d 0x11)⟩
  | crcBuf => exact ⟨opcodeMap[5], List.getElem_mem (by decide), rfl⟩

/-! ### The decoder (R104, R105) -/

/-- The decoder answers the command of a row that selects the word, or rejects a word that no row selects. -/
theorem decodeCmd_cases (w : Word) :
    (∃ row ∈ opcodeMap, row.selects w = true ∧ decodeCmd w = .ok (row.op.command w)) ∨
    ((∀ row ∈ opcodeMap, ¬ row.selects w = true) ∧ decodeCmd w = .error (illegalReason w)) := by
  unfold decodeCmd
  cases h : opcodeMap.find? (fun row => row.selects w) with
  | some row =>
    have hselects : row.selects w = true := List.find?_some (p := fun r : OpcodeRow => r.selects w) h
    exact .inl ⟨row, List.mem_of_find?_eq_some h, hselects, rfl⟩
  | none => exact .inr ⟨List.find?_eq_none.mp h, rfl⟩

/-- Whichever row selects the word, the decoder answers its command, since no other row selects it. -/
theorem decodeCmd_of_selects {row : OpcodeRow} (hrow : row ∈ opcodeMap) {w : Word} (h : row.selects w = true) :
    decodeCmd w = .ok (row.op.command w) := by
  rcases decodeCmd_cases w with ⟨row', hrow', h', hdecode⟩ | ⟨hnone, _⟩
  · rw [hdecode, row_eq_of_selects hrow' hrow h' h]
  · exact absurd h (hnone row hrow)

theorem decodeCmd_encodeCmd (i : Instr) : decodeCmd (encodeCmd i) = .ok i := by
  obtain ⟨row, hrow, hcommand⟩ := exists_row_command_encodeCmd i
  have hselects : row.selects (encodeCmd i) = true := by rw [selects_iff_encodeCmd hrow, hcommand]
  rw [decodeCmd_of_selects hrow hselects, hcommand]

theorem encodeCmd_of_decodeCmd {w : Word} {i : Instr} (h : decodeCmd w = .ok i) : encodeCmd i = w := by
  rcases decodeCmd_cases w with ⟨row, hrow, hselects, hdecode⟩ | ⟨_, hdecode⟩ <;> rw [hdecode] at h
  · cases h
    exact (selects_iff_encodeCmd hrow w).mp hselects
  · cases h

/-- The words that are no encoding are the illegal ones. -/
theorem decodeCmd_of_not_encoding {w : Word} (h : ∀ i, w ≠ encodeCmd i) :
    decodeCmd w = .error (illegalReason w) := by
  rcases decodeCmd_cases w with ⟨_, _, _, hdecode⟩ | ⟨_, hdecode⟩
  · exact absurd (encodeCmd_of_decodeCmd hdecode).symm (h _)
  · exact hdecode

/-- An illegal word with a listed OP is rejected for its operand bits (R103). -/
theorem illegalReason_of_listed_op {w : Word} (h : cmdOp w ∈ [0x00, 0x01, 0x02, 0x10, 0x11, 0x12]) :
    illegalReason w = .operandBits (cmdOp w) := by
  have hlisted : ∀ op ∈ ([0x00, 0x01, 0x02, 0x10, 0x11, 0x12] : List Byte),
      opcodeMap.any (fun row => row.matchWord == op.setWidth 32) = true := by decide
  exact if_pos (hlisted _ h)

/-- A word with operand bits that its OP's format forbids is no encoding (R103). -/
theorem not_encoding_of_operandBits {w : Word}
    (h : (cmdOp w ∈ [0x00, 0x01, 0x02, 0x10, 0x12] ∧ w.extractLsb' 8 24 ≠ 0) ∨
      (cmdOp w = 0x11 ∧ w.extractLsb' 16 16 ≠ 0)) (i : Instr) : w ≠ encodeCmd i := by
  rintro rfl
  rcases h with ⟨hop, hbits⟩ | ⟨_, hbits⟩
  · rw [cmdOp_encodeCmd] at hop
    exact hbits (operandBits_encodeCmd_of_c0 hop)
  · exact hbits (cmdRsvd_encodeCmd i)

end Sys2Proof

namespace Sys2Proof.Machine

variable {s : State}

/-! ### The engine's step on a pending word -/

/-- The engine carries out the command the pending word decodes to (20_memory.md R85). -/
theorem engineStep_of_decoded {w : Word} {i : Instr} (hpend : s.pend = some w) (hdecode : decodeCmd w = .ok i) :
    engineStep s = exec i s := by
  simp only [engineStep, hpend, hdecode]

/-- The engine completes a rejected word as an illegal one (42_control.md R201). -/
theorem engineStep_of_rejected {w : Word} {e : IllegalWord} (hpend : s.pend = some w)
    (hdecode : decodeCmd w = .error e) : engineStep s = .next (completeIllegal s) := by
  simp only [engineStep, hpend, hdecode]

/-! ### The header of the frame a successful ENCODE builds (R110) -/

/-- ENCODE of a payload that is not too long ends in `encodedState` (40_framer.md R140, R141). -/
theorem exec_encode_of_fits (h : s.regs.plen.toNat ≤ s.cfg.maxPayload) :
    exec .encode s = .next (encodedState s) := by
  rcases execEncode_cases s with ⟨hlong, _⟩ | ⟨_, he⟩
  · omega
  · exact he

/-- A frame that fits has a length of 16 bits (R111). -/
theorem toNat_frameLength (hc : s.cfg.legal = true) (h : s.regs.plen.toNat ≤ s.cfg.maxPayload) :
    (BitVec.ofNat 16 (frameLength s)).toNat = s.regs.plen.toNat + 25 := by
  simp only [Config.legal, Bool.and_eq_true, decide_eq_true_eq] at hc
  rw [Config.maxPayload] at h
  rw [BitVec.toNat_ofNat, frameLength, Nat.mod_eq_of_lt (by omega)]

/-- A two-byte header field, read back whole from its two bytes. -/
theorem fbHalf_encodedState_header {i : Nat} {v : Half} (hi : i + 1 < 23)
    (hhi : (frameHeader s.regs (BitVec.ofNat 16 (frameLength s))).getD i 0 = hiByte v)
    (hlo : (frameHeader s.regs (BitVec.ofNat 16 (frameLength s))).getD (i + 1) 0 = loByte v) :
    fbHalf (encodedState s) i = v := by
  rw [fbHalf, fbByte_encodedState_header s i (by omega), fbByte_encodedState_header s (i + 1) hi, hhi, hlo,
    be16_hiByte_loByte]

/-- The sender's identifier stands at bytes 4 to 9 of the header. -/
theorem frameHeader_sid (g : Regs) (n : Half) {k : Nat} (hk : k < 6) :
    (frameHeader g n).getD (4 + k) 0 = idByte (id48 g.txSidHi g.txSidLo) k := by
  interval_cases k <;> rfl

/-- The receiver's identifier stands at bytes 10 to 15 of the header. -/
theorem frameHeader_rid (g : Regs) (n : Half) {k : Nat} (hk : k < 6) :
    (frameHeader g n).getD (10 + k) 0 = idByte (id48 g.txRidHi g.txRidLo) k := by
  interval_cases k <;> rfl

/-! ### The obligations -/

/-- Settles O2: a row selects a word exactly when the word encodes the command read from it, and no other row does. -/
theorem decodeAndEncodeAgree : Obligations.DecodeAndEncodeAgree :=
  ⟨decodeCmd_encodeCmd, fun _ _ => encodeCmd_of_decodeCmd⟩

/-- Settles O3: a row selects only words with its own OP value, and no two rows share one. -/
theorem atMostOneRowSelectsAWord : Obligations.AtMostOneRowSelectsAWord :=
  fun _ _ _ => row_eq_of_selects

/-- Settles O4: such a word is no encoding, so the decoder rejects it, and the engine completes it as illegal. -/
theorem operandBitsMustBeZero : Obligations.OperandBitsMustBeZero := by
  intro w h
  have hop : cmdOp w ∈ [0x00, 0x01, 0x02, 0x10, 0x11, 0x12] := by
    rcases h with ⟨hc0, _⟩ | ⟨hc8, _⟩
    · have hsub : ([0x00, 0x01, 0x02, 0x10, 0x12] : List Byte) ⊆ [0x00, 0x01, 0x02, 0x10, 0x11, 0x12] := by decide
      exact hsub hc0
    · rw [hc8]
      decide
  have hdecode : decodeCmd w = .error (.operandBits (cmdOp w)) := by
    rw [decodeCmd_of_not_encoding (not_encoding_of_operandBits h), illegalReason_of_listed_op hop]
  exact ⟨hdecode, fun s hpend => engineStep_of_rejected hpend hdecode⟩

/-- Settles O17: every byte of `FB[0 .. 22]` is that of the header list, and a legal BUF_SIZE keeps the length to 16
bits. -/
theorem encodeWritesHeaderFields : Obligations.EncodeWritesHeaderFields := by
  intro s hc hplen
  have hbyte := fbByte_encodedState_header s
  refine ⟨encodedState s, exec_encode_of_fits hplen, completed_encodedState s, ?_, ?_, fun k hk => ?_, fun k hk => ?_,
    hbyte 16 (by decide), ?_, hbyte 19 (by decide), hbyte 20 (by decide), hbyte 21 (by decide), hbyte 22 (by decide)⟩
  · exact fbHalf_encodedState_header (by decide) rfl rfl
  · rw [fbHalf_encodedState_header (by decide) rfl rfl, toNat_frameLength hc hplen]
  · rw [hbyte (4 + k) (by omega), frameHeader_sid s.regs _ hk]
    rfl
  · rw [hbyte (10 + k) (by omega), frameHeader_rid s.regs _ hk]
    rfl
  · exact fbHalf_encodedState_header (by decide) rfl rfl

/-- Settles O1: the words are fixed, and the decoder runs on each. -/
theorem opcodeMapWordsDecode : Obligations.OpcodeMapWordsDecode := by
  unfold Obligations.OpcodeMapWordsDecode
  decide

/-- Settles O5: a listed turn of the engine, or the end of the free delay, gives the step to the engine. -/
theorem stepRunsThePendingCommand : Obligations.StepRunsThePendingCommand := by
  intro s w i hpend hdecode
  refine ⟨i.wf_eq_true, fun rest hturns => ?_, fun hturns hdelay => ?_⟩
  · rw [step, nextTurn_of_listed hturns, takeTurn_of_listed hturns]
    exact engineStep_of_decoded hpend hdecode
  · obtain ⟨_, _, _, hunlisted⟩ := turnsDecideWhoMoves s []
    rw [hunlisted hturns, if_pos ⟨by simp [hpend], hdelay⟩]
    exact engineStep_of_decoded hpend hdecode

end Sys2Proof.Machine

/-! SUPPORT. The CRC of strings that differ in one byte and of a string with its checksum, the registers and bytes a
command of the framer leaves, and DECODE's outcomes one by one: lemmas first, then the obligations on the framer
(40_framer.md). -/

namespace Sys2Proof.Machine

variable {s s' t : State}

/-! ### Fields and their bytes (00_scope.md R8) -/

theorem hiByte_be16 (hi lo : Byte) : hiByte (be16 hi lo) = hi :=
  BitVec.extractLsb'_append_eq_left

theorem loByte_be16 (hi lo : Byte) : loByte (be16 hi lo) = lo :=
  BitVec.extractLsb'_append_eq_right

theorem getLsbD_be16 (hi lo : Byte) (k : Nat) :
    (be16 hi lo).getLsbD k = if k < 8 then lo.getLsbD k else hi.getLsbD (k - 8) :=
  BitVec.getLsbD_append

/-- A 16-bit field determines its two bytes. -/
theorem be16_inj {hi lo hi' lo' : Byte} (h : be16 hi lo = be16 hi' lo') : hi = hi' ∧ lo = lo' := by
  constructor
  · rw [← hiByte_be16 hi lo, h, hiByte_be16]
  · rw [← loByte_be16 hi lo, h, loByte_be16]

/-- The first two bytes of an identifier are the HI register's (10_state.md R33). -/
theorem be16_idByte (hi : Half) (lo : Word) : be16 (idByte (id48 hi lo) 0) (idByte (id48 hi lo) 1) = hi :=
  calc be16 (idByte (id48 hi lo) 0) (idByte (id48 hi lo) 1)
      = (hi ++ lo).extractLsb' 32 16 := BitVec.extractLsb'_append_extractLsb'_eq_extractLsb' rfl
    _ = hi := BitVec.extractLsb'_append_eq_left

/-- The last four bytes of an identifier are the LO register's (R33). -/
theorem be32_idByte (hi : Half) (lo : Word) :
    be32 (idByte (id48 hi lo) 2) (idByte (id48 hi lo) 3) (idByte (id48 hi lo) 4) (idByte (id48 hi lo) 5) = lo := by
  have h23 : idByte (id48 hi lo) 2 ++ idByte (id48 hi lo) 3 = (hi ++ lo).extractLsb' 16 16 :=
    BitVec.extractLsb'_append_extractLsb'_eq_extractLsb' rfl
  have h234 : (hi ++ lo).extractLsb' 16 16 ++ idByte (id48 hi lo) 4 = (hi ++ lo).extractLsb' 8 24 :=
    BitVec.extractLsb'_append_extractLsb'_eq_extractLsb' rfl
  calc be32 (idByte (id48 hi lo) 2) (idByte (id48 hi lo) 3) (idByte (id48 hi lo) 4) (idByte (id48 hi lo) 5)
      = (hi ++ lo).extractLsb' 8 24 ++ idByte (id48 hi lo) 5 := by rw [be32, h23, h234]
    _ = (hi ++ lo).extractLsb' 0 32 := BitVec.extractLsb'_append_extractLsb'_eq_extractLsb' rfl
    _ = lo := BitVec.extractLsb'_append_eq_right

/-- The header register is its three bytes (10_state.md R34, R39). -/
theorem hdrPack_hdrSub_hdrFunc_hdrGrp (v : BitVec 24) : hdrPack (hdrSub v) (hdrFunc v) (hdrGrp v) = v := by
  have hupper : hdrSub v ++ hdrFunc v = v.extractLsb' 8 16 :=
    BitVec.extractLsb'_append_extractLsb'_eq_extractLsb' rfl
  rw [hdrPack, hupper]
  exact BitVec.extractLsb'_append_extractLsb'

/-- Inverting a bit of a byte changes it. -/
theorem xor_twoPow_ne (b : Byte) (k : Fin 8) : b ^^^ BitVec.twoPow 8 k.val ≠ b := by
  intro h
  have hbit := congrArg (fun v : Byte => v.getLsbD k.val) h
  simp at hbit

/-! ### The CRC of strings that differ in one byte (41_crc.md R180, R181) -/

/-- The polynomial's lowest bit is 1, so the lowest bit after a shift is the bit shifted out. -/
theorem getLsbD_zero_crcShift (c : Half) : (crcShift c).getLsbD 0 = c.getLsbD 15 := by
  unfold crcShift
  split <;> simp_all

/-- One bit of the CRC loses nothing: the bit shifted out is seen in the result, and the rest is only shifted. -/
theorem crcShift_injective : Function.Injective crcShift := by
  intro c d h
  have htop : c.getLsbD 15 = d.getLsbD 15 := by
    rw [← getLsbD_zero_crcShift, h, getLsbD_zero_crcShift]
  have hshift : c <<< 1 = d <<< 1 := by
    unfold crcShift at h
    rw [htop] at h
    split at h
    · exact (BitVec.xor_left_inj _).mp h
    · exact h
  apply BitVec.eq_of_getLsbD_eq
  intro k hk
  rcases Nat.lt_or_ge k 15 with hlow | hhigh
  · have hbit := congrArg (fun v : Half => v.getLsbD (k + 1)) hshift
    simpa [← BitVec.getLsbD_eq_getElem, show k + 1 < 16 by omega] using hbit
  · have hk15 : k = 15 := by omega
    rw [hk15, htop]

theorem crcShifts_injective (n : Nat) : Function.Injective (crcShifts n) := by
  induction n with
  | zero => exact Function.injective_id
  | succ n ih => exact ih.comp crcShift_injective

/-- The byte enters the high byte of the CRC (R180). -/
theorem crc16Step_be16 (hi lo b : Byte) : crc16Step (be16 hi lo) b = crcShifts 8 (be16 (hi ^^^ b) lo) := by
  have henters : b.setWidth 16 <<< 8 = be16 b 0#8 := by
    apply BitVec.eq_of_getLsbD_eq
    intro k hk
    rw [getLsbD_be16]
    simp only [BitVec.getLsbD_shiftLeft, BitVec.getLsbD_setWidth, BitVec.getLsbD_zero, hk]
    by_cases hlow : k < 8
    · simp [hlow]
    · simp [hlow, show k - 8 < 16 by omega]
  have hxor : be16 hi lo ^^^ be16 b 0#8 = be16 (hi ^^^ b) (lo ^^^ 0#8) := BitVec.xor_append
  rw [crc16Step, henters, hxor, BitVec.xor_zero]

/-- A step from different CRCs gives different ones. -/
theorem crc16Step_left_injective (b : Byte) : Function.Injective (crc16Step · b) :=
  (crcShifts_injective 8).comp fun _ _ => (BitVec.xor_left_inj _).mp

/-- A step with different bytes gives different CRCs. -/
theorem crc16Step_right_injective (c : Half) : Function.Injective (crc16Step c) := by
  intro b b' h
  rw [← be16_hiByte_loByte c, crc16Step_be16, crc16Step_be16] at h
  obtain ⟨hhi, _⟩ := be16_inj (crcShifts_injective 8 h)
  exact (BitVec.xor_right_inj _).mp hhi

theorem crc16_injective (bytes : List Byte) : Function.Injective (crc16 bytes) := by
  induction bytes with
  | nil => exact Function.injective_id
  | cons b rest ih => exact ih.comp (crc16Step_left_injective b)

/-- Strings that differ in one byte have different CRCs. -/
theorem crc16_ne_of_one_byte {b b' : Byte} (h : b ≠ b') (before after : List Byte) (c : Half) :
    crc16 (before ++ b :: after) c ≠ crc16 (before ++ b' :: after) c := by
  rw [crc16_append, crc16_append, crc16_cons, crc16_cons]
  exact (crc16_injective after).ne ((crc16Step_right_injective _).ne h)

/-! ### The CRC of a string with its checksum appended (R180, R181) -/

/-- As long as no 1 is shifted out, the CRC is only shifted. -/
theorem crcShifts_eq_shiftLeft (n : Nat) : ∀ {c : Half}, (∀ k, 16 ≤ k + n → c.getLsbD k = false) →
    crcShifts n c = c <<< n := by
  induction n with
  | zero => intro c _; exact (BitVec.shiftLeft_zero c).symm
  | succ n ih =>
    intro c hhigh
    have htop : c.getLsbD 15 = false := hhigh 15 (by omega)
    have hone : crcShift c = c <<< 1 := by rw [crcShift, htop, if_neg Bool.false_ne_true]
    rw [crcShifts, hone, ih, Nat.add_comm n 1, BitVec.shiftLeft_add]
    intro k hk
    rw [BitVec.getLsbD_shiftLeft]
    rcases Nat.eq_zero_or_pos k with rfl | hpos
    · simp
    · simp [hhigh (k - 1) (by omega)]

/-- Eight shifts move a low byte into the high byte. -/
theorem crcShifts_eight_be16_zero (lo : Byte) : crcShifts 8 (be16 0#8 lo) = be16 lo 0#8 := by
  rw [crcShifts_eq_shiftLeft]
  · apply BitVec.eq_of_getLsbD_eq
    intro k hk
    rw [BitVec.getLsbD_shiftLeft, getLsbD_be16, getLsbD_be16]
    by_cases hlow : k < 8
    · simp [hlow]
    · simp [hlow, hk, show k - 8 < 8 by omega]
  · intro k hk
    rw [getLsbD_be16, if_neg (by omega), BitVec.getLsbD_zero]

/-- A CRC absorbs its own two bytes, high byte first, and leaves nothing: each byte cancels the half it meets. -/
theorem crc16_own_bytes (c : Half) : crc16 [hiByte c, loByte c] c = 0 :=
  calc crc16 [hiByte c, loByte c] c
      = crc16Step (crc16Step (be16 (hiByte c) (loByte c)) (hiByte c)) (loByte c) := by
        rw [be16_hiByte_loByte]
        rfl
    _ = crc16Step (be16 (loByte c) 0#8) (loByte c) := by
        rw [crc16Step_be16, BitVec.xor_self, crcShifts_eight_be16_zero]
    _ = be16 0#8 0#8 := by rw [crc16Step_be16, BitVec.xor_self, crcShifts_eight_be16_zero]
    _ = 0 := by decide

/-! ### FB ranges -/

/-- A range around one of its bytes. -/
theorem fbRange_split (s : State) {i n : Nat} (hi : i < n) :
    fbRange s 0 n = fbRange s 0 i ++ fbByte s i :: fbRange s (i + 1) (n - (i + 1)) := by
  obtain ⟨m, rfl⟩ : ∃ m, n = i + (1 + m) := ⟨n - (i + 1), by omega⟩
  have hlen : i + (1 + m) - (i + 1) = m := by omega
  have hone : fbRange s i 1 = [fbByte s i] := rfl
  rw [fbRange_append, Nat.zero_add, fbRange_append, hone, hlen, List.singleton_append]

/-- A range ends in its last two bytes. -/
theorem fbRange_add_two (s : State) (n : Nat) :
    fbRange s 0 (n + 2) = fbRange s 0 n ++ [fbByte s n, fbByte s (n + 1)] := by
  have htwo : fbRange s n 2 = [fbByte s n, fbByte s (n + 1)] := rfl
  rw [fbRange_append, Nat.zero_add, htwo]

theorem fbByte_fbWrite_of_ne {i j : Nat} {b : Byte} (hj : i ≠ j) : fbByte (fbWrite i b s) j = fbByte s j := by
  rw [fbByte_fbWrite, if_neg hj]

/-- The CRC of a range sees a change of any one byte of it. -/
theorem crc16_fbRange_fbWrite_ne {i n : Nat} {b : Byte} (hi : i < n) (hb : b ≠ fbByte s i) (c : Half) :
    crc16 (fbRange (fbWrite i b s) 0 n) c ≠ crc16 (fbRange s 0 n) c := by
  rw [fbRange_split _ hi, fbRange_split s hi, fbByte_fbWrite, if_pos rfl,
    fbRange_congr (t := fbWrite i b s) 0 i fun j _ hj => fbByte_fbWrite_of_ne (by omega),
    fbRange_congr (t := fbWrite i b s) (i + 1) (n - (i + 1)) fun j hj _ => fbByte_fbWrite_of_ne (by omega)]
  exact crc16_ne_of_one_byte hb _ _ c

/-! ### ENCODE (R140 to R145) -/

theorem exec_encode_of_too_long (h : s.cfg.maxPayload < s.regs.plen.toNat) :
    exec .encode s = .next (complete .payloadTooLong s) :=
  if_pos h

/-- An ENCODE that ends with OK has built the frame. -/
theorem eq_encodedState_of_ok (hexec : exec .encode s = .next t) (hok : t.regs.err = errValue .ok) :
    t = encodedState s := by
  rcases execEncode_cases s with ⟨_, he⟩ | ⟨_, he⟩
  · cases Host.Outcome.next.inj (he.symm.trans hexec)
    exact absurd hok (by decide : errValue .payloadTooLong ≠ errValue .ok)
  · exact Host.Outcome.next.inj (hexec.symm.trans he)

/-! The registers after a successful ENCODE. -/

theorem encodedState_csumCalc (s : State) : (encodedState s).regs.csumCalc = encodeChecksum s := rfl

theorem encodedState_evt (s : State) : (encodedState s).regs.evt = s.regs.evt + 1 := rfl

theorem encodedState_crc (s : State) : (encodedState s).regs.crc = s.regs.crc := rfl

/-! The bytes after a successful ENCODE that are no header bytes. -/

theorem fbByte_encodedState_checksum_hi (s : State) :
    fbByte (encodedState s) (23 + s.regs.plen.toNat) = hiByte (encodeChecksum s) := by
  rw [fbByte_encodedState, fbByte_writeFrame, if_pos rfl]

theorem fbByte_encodedState_checksum_lo (s : State) :
    fbByte (encodedState s) (24 + s.regs.plen.toNat) = loByte (encodeChecksum s) := by
  rw [fbByte_encodedState, fbByte_writeFrame, if_neg (by omega), if_pos rfl]

/-- The checksum is that of the header and the payload as they stand in FB afterwards (R142). -/
theorem crc16_fbRange_encodedState (s : State) :
    crc16 (fbRange (encodedState s) 0 (23 + s.regs.plen.toNat)) crcInitValue = encodeChecksum s := by
  rw [encodeChecksum, fbRange_congr (s := writeHeader s)]
  intro i _ hi
  rw [fbByte_encodedState, fbByte_writeFrame, if_neg (by omega), if_neg (by omega)]

/-- The declared length of the frame is FLEN (R143). -/
theorem declaredLength_encodedState (s : State) : declaredLength (encodedState s) = (encodedState s).regs.flen :=
  fbHalf_encodedState_header (by decide) rfl rfl

/-- The frame carries the event id ENCODE found in EVT (R144). -/
theorem fbHalf_encodedState_evt (s : State) : fbHalf (encodedState s) 17 = s.regs.evt :=
  fbHalf_encodedState_header (by decide) rfl rfl

theorem toNat_encodedState_flen (hc : s.cfg.legal = true) (h : s.regs.plen.toNat ≤ s.cfg.maxPayload) :
    (encodedState s).regs.flen.toNat = s.regs.plen.toNat + 25 :=
  toNat_frameLength hc h

/-! ### The CRC register has no part in the framer (10_state.md R30) -/

theorem fbWrites_setCrc (c : Half) (bytes : List Byte) : ∀ (i : Nat) (s : State),
    fbWrites i bytes (setCrc c s) = setCrc c (fbWrites i bytes s) := by
  induction bytes with
  | nil => intro i s; rfl
  | cons b rest ih => intro i s; exact ih (i + 1) (fbWrite i b s)

theorem fbRange_setCrc (c : Half) (s : State) (o n : Nat) : fbRange (setCrc c s) o n = fbRange s o n := rfl

theorem writeHeader_setCrc (c : Half) (s : State) : writeHeader (setCrc c s) = setCrc c (writeHeader s) :=
  fbWrites_setCrc c _ 0 s

theorem encodeChecksum_setCrc (c : Half) (s : State) : encodeChecksum (setCrc c s) = encodeChecksum s := by
  rw [encodeChecksum, writeHeader_setCrc, fbRange_setCrc, setCrc_regs, encodeChecksum]

theorem writeFrame_setCrc (c : Half) (s : State) : writeFrame (setCrc c s) = setCrc c (writeFrame s) := by
  rw [writeFrame, encodeChecksum_setCrc, writeHeader_setCrc, fbWrites_setCrc]
  rfl

theorem encodedState_setCrc (c : Half) (s : State) : encodedState (setCrc c s) = setCrc c (encodedState s) := by
  have hregs : encodeRegs (setCrc c s) = { encodeRegs s with crc := c } := by
    rw [encodeRegs, encodeChecksum_setCrc]
    rfl
  rw [encodedState, writeFrame_setCrc, hregs]
  rfl

/-! ### DECODE's outcomes (R150 to R155) -/

theorem RegsKept.mono {named named' : List RegName} (h : RegsKept named s t) (hsub : named ⊆ named') :
    RegsKept named' s t :=
  fun r hr => h r fun hmem => hr (hsub hmem)

theorem exec_decode_of_short (h : s.regs.flen.toNat < 25) : exec .decode s = .next (complete .frameTooShort s) :=
  if_pos h

theorem exec_decode_of_long (hmin : 25 ≤ s.regs.flen.toNat) (h : s.cfg.bufSize < s.regs.flen.toNat) :
    exec .decode s = .next (complete .frameTooLong s) :=
  (if_neg (Nat.not_lt.mpr hmin)).trans (if_pos h)

/-- The state DECODE ends in when both checks pass. -/
abbrev decodedState (s : State) : State := complete .ok (publishFields (recordChecksums s))

section InRange

variable (hmin : 25 ≤ s.regs.flen.toNat) (hmax : s.regs.flen.toNat ≤ s.cfg.bufSize)

include hmin hmax

theorem exec_decode_of_checksum_ne (h : decodeChecksum s ≠ carriedChecksum s) :
    exec .decode s = .next (complete .checksumMismatch (recordChecksums s)) := by
  rw [exec, execDecode, if_neg (Nat.not_lt.mpr hmin), if_neg (Nat.not_lt.mpr hmax), if_pos h]

theorem exec_decode_of_length_ne (h : decodeChecksum s = carriedChecksum s) (hlen : declaredLength s ≠ s.regs.flen) :
    exec .decode s = .next (complete .lengthMismatch (recordChecksums s)) := by
  rw [exec, execDecode, if_neg (Nat.not_lt.mpr hmin), if_neg (Nat.not_lt.mpr hmax), if_neg (not_not.mpr h), if_pos hlen]

theorem exec_decode_of_accepted (h : decodeChecksum s = carriedChecksum s) (hlen : declaredLength s = s.regs.flen) :
    exec .decode s = .next (decodedState s) := by
  rw [exec, execDecode, if_neg (Nat.not_lt.mpr hmin), if_neg (Nat.not_lt.mpr hmax), if_neg (not_not.mpr h),
    if_neg (not_not.mpr hlen)]

end InRange

/-- A DECODE that ends with OK has found a frame whose checks pass. -/
theorem accepted_of_ok (hexec : exec .decode s = .next t) (hok : t.regs.err = errValue .ok) :
    25 ≤ s.regs.flen.toNat ∧ s.regs.flen.toNat ≤ s.cfg.bufSize ∧ decodeChecksum s = carriedChecksum s ∧
      t = decodedState s := by
  have hcode {code : ErrCode} {u : State} (he : execDecode s = .next (complete code u)) :
      errValue code = errValue .ok := by
    rw [← hok, ← Host.Outcome.next.inj (he.symm.trans hexec), complete_regs]
  rcases execDecode_cases s with ⟨_, he⟩ | ⟨_, he⟩ | ⟨hmin, hmax, ⟨_, he⟩ | ⟨_, _, he⟩ | ⟨hsum, _, he⟩⟩
  · exact absurd (hcode he) (by decide)
  · exact absurd (hcode he) (by decide)
  · exact absurd (hcode he) (by decide)
  · exact absurd (hcode he) (by decide)
  · exact ⟨hmin, hmax, hsum, Host.Outcome.next.inj (hexec.symm.trans he)⟩

theorem completed_complete_recordChecksums (code : ErrCode) (s : State) :
    Completed code s (complete code (recordChecksums s)) :=
  ⟨rfl, rfl, rfl, rfl, rfl⟩

theorem othersKept_complete_recordChecksums (code : ErrCode) (s : State) :
    OthersKept s (complete code (recordChecksums s)) :=
  ⟨rfl, rfl, rfl, rfl, rfl, rfl, rfl⟩

theorem decodedState_regs (s : State) :
    (decodedState s).regs = { publishedRegs s with
      csumCalc := decodeChecksum s, csumRx := carriedChecksum s, err := errValue .ok, done := true } := by
  rw [complete_regs, publishFields_regs]
  simp only [publishedRegs, declaredLength, fbHalf, fbWord, fbByte_recordChecksums, recordChecksums_regs]

theorem decodedState_csumCalc (s : State) : (decodedState s).regs.csumCalc = decodeChecksum s := by
  rw [decodedState_regs]

theorem decodedState_csumRx (s : State) : (decodedState s).regs.csumRx = carriedChecksum s := by
  rw [decodedState_regs]

theorem fbKept_decodedState (s : State) : FbKept (fun _ => True) s (decodedState s) := by
  intro i _
  rw [fbByte_complete, fbByte_publishFields, fbByte_recordChecksums]

/-- PLEN after a successful DECODE (R155). -/
theorem toNat_decodedState_plen (s : State) : (decodedState s).regs.plen.toNat = s.regs.flen.toNat - 25 := by
  have hflen := s.regs.flen.isLt
  rw [decodedState_regs]
  exact (BitVec.toNat_ofNat _ _).trans (Nat.mod_eq_of_lt (by omega))

/-- In the length range DECODE records both checksums whatever the outcome, and keeps CRC (R152). -/
theorem exec_decode_records (hmin : 25 ≤ s.regs.flen.toNat) (hmax : s.regs.flen.toNat ≤ s.cfg.bufSize) :
    ∃ t, exec .decode s = .next t ∧ t.regs.csumCalc = decodeChecksum s ∧ t.regs.csumRx = carriedChecksum s ∧
      t.regs.crc = s.regs.crc := by
  by_cases hsum : decodeChecksum s = carriedChecksum s
  · by_cases hlen : declaredLength s = s.regs.flen
    · exact ⟨_, exec_decode_of_accepted hmin hmax hsum hlen, decodedState_csumCalc s, decodedState_csumRx s,
        by rw [decodedState_regs]; rfl⟩
    · exact ⟨_, exec_decode_of_length_ne hmin hmax hsum hlen, rfl, rfl, rfl⟩
  · exact ⟨_, exec_decode_of_checksum_ne hmin hmax hsum, rfl, rfl, rfl⟩

/-! ### What DECODE reads of FB (R157) -/

section SameBytes

variable {n : Nat} (hbytes : ∀ i, i < n → fbByte s' i = fbByte s i)

include hbytes

theorem fbHalf_congr {i : Nat} (hi : i + 1 < n) : fbHalf s' i = fbHalf s i := by
  rw [fbHalf, hbytes i (by omega), hbytes (i + 1) hi, fbHalf]

theorem fbWord_congr {i : Nat} (hi : i + 3 < n) : fbWord s' i = fbWord s i := by
  rw [fbWord, hbytes i (by omega), hbytes (i + 1) (by omega), hbytes (i + 2) (by omega), hbytes (i + 3) hi, fbWord]

theorem publishedRegs_congr (hn : 23 ≤ n) (hregs : s'.regs = s.regs) : publishedRegs s' = publishedRegs s := by
  simp (disch := omega) only [publishedRegs, declaredLength, hregs, fbHalf_congr hbytes, fbWord_congr hbytes, hbytes]

end SameBytes

/-- Two states with the same FLEN and BUF_SIZE, and in the length range the same checksums and declared length, get the
same outcome from DECODE. -/
theorem exec_decode_alike (hflen : s'.regs.flen = s.regs.flen) (hcfg : s'.cfg = s.cfg)
    (hchecks : 25 ≤ s.regs.flen.toNat → decodeChecksum s' = decodeChecksum s ∧
      carriedChecksum s' = carriedChecksum s ∧ declaredLength s' = declaredLength s) :
    (∃ code, exec .decode s = .next (complete code s) ∧ exec .decode s' = .next (complete code s')) ∨
    (25 ≤ s.regs.flen.toNat ∧ ∃ code, exec .decode s = .next (complete code (recordChecksums s)) ∧
      exec .decode s' = .next (complete code (recordChecksums s'))) ∨
    (25 ≤ s.regs.flen.toNat ∧ exec .decode s = .next (decodedState s) ∧
      exec .decode s' = .next (decodedState s')) := by
  rcases Nat.lt_or_ge s.regs.flen.toNat 25 with hshort | hmin
  · exact .inl ⟨_, exec_decode_of_short hshort, exec_decode_of_short (by rwa [hflen])⟩
  have hmin' : 25 ≤ s'.regs.flen.toNat := by rwa [hflen]
  rcases Nat.lt_or_ge s.cfg.bufSize s.regs.flen.toNat with hlong | hmax
  · exact .inl ⟨_, exec_decode_of_long hmin hlong, exec_decode_of_long hmin' (by rwa [hflen, hcfg])⟩
  have hmax' : s'.regs.flen.toNat ≤ s'.cfg.bufSize := by rwa [hflen, hcfg]
  obtain ⟨hcalc, hcarried, hdeclared⟩ := hchecks hmin
  by_cases hsum : decodeChecksum s = carriedChecksum s
  · have hsum' : decodeChecksum s' = carriedChecksum s' := by rwa [hcalc, hcarried]
    by_cases hlen : declaredLength s = s.regs.flen
    · exact .inr (.inr ⟨hmin, exec_decode_of_accepted hmin hmax hsum hlen,
        exec_decode_of_accepted hmin' hmax' hsum' (by rwa [hdeclared, hflen])⟩)
    · exact .inr (.inl ⟨hmin, _, exec_decode_of_length_ne hmin hmax hsum hlen,
        exec_decode_of_length_ne hmin' hmax' hsum' (by rwa [hdeclared, hflen])⟩)
  · exact .inr (.inl ⟨hmin, _, exec_decode_of_checksum_ne hmin hmax hsum,
      exec_decode_of_checksum_ne hmin' hmax' (by rwa [hcalc, hcarried])⟩)

theorem decodedState_setCrc (c : Half) (s : State) : decodedState (setCrc c s) = setCrc c (decodedState s) := by
  rw [decodedState, decodedState, publishFields, publishFields]
  rfl

/-- DECODE does the same whatever the CRC register holds, and keeps it (R152). -/
theorem exec_decode_setCrc (hexec : exec .decode s = .next t) (c : Half) :
    exec .decode (setCrc c s) = .next (setCrc c t) := by
  have hcalc : decodeChecksum (setCrc c s) = decodeChecksum s := by
    rw [decodeChecksum, fbRange_setCrc, setCrc_regs, decodeChecksum]
  rcases exec_decode_alike (s' := setCrc c s) (s := s) rfl rfl fun _ => ⟨hcalc, rfl, rfl⟩ with
    ⟨code, he, he'⟩ | ⟨_, code, he, he'⟩ | ⟨_, he, he'⟩ <;>
    obtain rfl := Host.Outcome.next.inj (hexec.symm.trans he)
  · exact he'
  · rw [he', recordChecksums, hcalc]
    rfl
  · rw [he', decodedState_setCrc]

/-! ### One inverted bit of the frame (R159) -/

section InvertedByte

variable {i : Nat} {b : Byte} (hb : b ≠ fbByte s i)

theorem decodeChecksum_fbWrite_of_ge (hi : s.regs.flen.toNat - 2 ≤ i) :
    decodeChecksum (fbWrite i b s) = decodeChecksum s := by
  rw [decodeChecksum, fbWrite_regs, fbRange_congr 0 _ fun j _ hj => fbByte_fbWrite_of_ne (by omega), decodeChecksum]

theorem carriedChecksum_fbWrite_of_lt (hi : i < s.regs.flen.toNat - 2) :
    carriedChecksum (fbWrite i b s) = carriedChecksum s := by
  rw [carriedChecksum, fbWrite_regs, fbHalf, fbByte_fbWrite_of_ne (by omega), fbByte_fbWrite_of_ne (by omega),
    carriedChecksum, fbHalf]

include hb

theorem decodeChecksum_fbWrite_ne (hi : i < s.regs.flen.toNat - 2) :
    decodeChecksum (fbWrite i b s) ≠ decodeChecksum s :=
  crc16_fbRange_fbWrite_ne hi hb crcInitValue

theorem carriedChecksum_fbWrite_ne (hi : s.regs.flen.toNat - 2 ≤ i) (hi' : i < s.regs.flen.toNat)
    (hmin : 2 ≤ s.regs.flen.toNat) : carriedChecksum (fbWrite i b s) ≠ carriedChecksum s := by
  intro h
  obtain ⟨hhi, hlo⟩ := be16_inj h
  rw [fbWrite_regs, fbByte_fbWrite] at hhi hlo
  rcases (by omega : i = s.regs.flen.toNat - 2 ∨ i = s.regs.flen.toNat - 2 + 1) with rfl | rfl
  · exact hb ((if_pos rfl).symm.trans hhi)
  · exact hb ((if_pos rfl).symm.trans hlo)

end InvertedByte

/-! ### DECODE of the frame ENCODE built (R158) -/

theorem carriedChecksum_encodedState (hc : s.cfg.legal = true) (h : s.regs.plen.toNat ≤ s.cfg.maxPayload) :
    carriedChecksum (encodedState s) = encodeChecksum s := by
  have hhi : (encodedState s).regs.flen.toNat - 2 = 23 + s.regs.plen.toNat := by
    rw [toNat_encodedState_flen hc h]
    omega
  have hlo : 23 + s.regs.plen.toNat + 1 = 24 + s.regs.plen.toNat := by omega
  rw [carriedChecksum, hhi, fbHalf, hlo, fbByte_encodedState_checksum_hi, fbByte_encodedState_checksum_lo,
    be16_hiByte_loByte]

theorem decodeChecksum_encodedState (hc : s.cfg.legal = true) (h : s.regs.plen.toNat ≤ s.cfg.maxPayload) :
    decodeChecksum (encodedState s) = encodeChecksum s := by
  have hlen : (encodedState s).regs.flen.toNat - 2 = 23 + s.regs.plen.toNat := by
    rw [toNat_encodedState_flen hc h]
    omega
  rw [decodeChecksum, hlen, crc16_fbRange_encodedState]

/-- DECODE accepts the frame ENCODE built. -/
theorem exec_decode_encodedState (hc : s.cfg.legal = true) (h : s.regs.plen.toNat ≤ s.cfg.maxPayload) :
    exec .decode (encodedState s) = .next (decodedState (encodedState s)) := by
  have hflen := toNat_encodedState_flen hc h
  have hcfg := (othersKept_encodedState s).cfg
  have hsum : decodeChecksum (encodedState s) = carriedChecksum (encodedState s) := by
    rw [decodeChecksum_encodedState hc h, carriedChecksum_encodedState hc h]
  refine exec_decode_of_accepted (by omega) ?_ hsum (declaredLength_encodedState s)
  simp only [Config.legal, Bool.and_eq_true, decide_eq_true_eq] at hc
  rw [Config.maxPayload] at h
  rw [hflen, hcfg]
  omega

/-- Six bytes that are an identifier's read back as its two registers. -/
theorem id_of_idBytes {p : Nat} {hi : Half} {lo : Word}
    (h : ∀ k, k < 6 → fbByte s (p + k) = idByte (id48 hi lo) k) : fbHalf s p = hi ∧ fbWord s (p + 2) = lo := by
  constructor
  · rw [← be16_idByte hi lo, ← h 0 (by decide), ← h 1 (by decide)]
    rfl
  · rw [← be32_idByte hi lo, ← h 2 (by decide), ← h 3 (by decide), ← h 4 (by decide), ← h 5 (by decide)]
    rfl

theorem sid_encodedState (s : State) :
    fbHalf (encodedState s) 4 = s.regs.txSidHi ∧ fbWord (encodedState s) 6 = s.regs.txSidLo :=
  id_of_idBytes fun k hk => by rw [fbByte_encodedState_header s (4 + k) (by omega), frameHeader_sid _ _ hk]

theorem rid_encodedState (s : State) :
    fbHalf (encodedState s) 10 = s.regs.txRidHi ∧ fbWord (encodedState s) 12 = s.regs.txRidLo :=
  id_of_idBytes fun k hk => by rw [fbByte_encodedState_header s (10 + k) (by omega), frameHeader_rid _ _ hk]

theorem hdr_encodedState (s : State) :
    hdrPack (fbByte (encodedState s) 20) (fbByte (encodedState s) 19) (fbByte (encodedState s) 16) = s.regs.txHdr := by
  rw [fbByte_encodedState_header s 20 (by decide), fbByte_encodedState_header s 19 (by decide),
    fbByte_encodedState_header s 16 (by decide)]
  exact hdrPack_hdrSub_hdrFunc_hdrGrp s.regs.txHdr

/-! ### Event ids over several ENCODEs (R160) -/

/-- The event id each of a row of ENCODEs finds in EVT. -/
theorem evt_of_successive_encodes {n : Nat} {before after : Nat → State}
    (hencode : ∀ k, k < n → after k = encodedState (before k))
    (hkept : ∀ k, k + 1 < n → (before (k + 1)).regs.evt = (after k).regs.evt) (k : Nat) (hk : k < n) :
    (before k).regs.evt.toNat = ((before 0).regs.evt.toNat + k) % 2 ^ 16 := by
  induction k with
  | zero => exact (Nat.mod_eq_of_lt (before 0).regs.evt.isLt).symm
  | succ k ih =>
    have hprev := ih (by omega)
    rw [hkept k hk, hencode k (by omega), encodedState_evt, BitVec.toNat_add, hprev, ← Nat.add_assoc, Nat.mod_add_mod]
    rfl

/-! ### The obligations -/

/-- Settles O16: ENCODE's one check decides between its two outcomes. -/
theorem encodeChecksOnlyPayloadLength : Obligations.EncodeChecksOnlyPayloadLength := by
  intro s
  refine ⟨fun hlong => ?_, fun hfits => ⟨_, exec_encode_of_fits hfits, completed_encodedState s⟩⟩
  exact ⟨_, exec_encode_of_too_long hlong, completed_complete _ s, regsKept_complete _ s, fbKept_complete _ s,
    othersKept_complete _ s⟩

/-- Settles O18: the checksum's two bytes stand outside the range it covers, and no write of ENCODE looks at CRC. -/
theorem encodeAppendsTheFrameChecksum : Obligations.EncodeAppendsTheFrameChecksum := by
  intro s _ hfits
  refine ⟨_, exec_encode_of_fits hfits, completed_encodedState s, (crc16_fbRange_encodedState s).symm,
    fbByte_encodedState_checksum_hi s, fbByte_encodedState_checksum_lo s, encodedState_crc s, fun c => ?_⟩
  rw [← encodedState_setCrc]
  exact exec_encode_of_fits (s := setCrc c s) hfits

/-- Settles O19: FLEN and the declared length are one value, of 16 bits under a legal BUF_SIZE. -/
theorem encodeSetsFrameLength : Obligations.EncodeSetsFrameLength :=
  fun s hc hfits => ⟨_, exec_encode_of_fits hfits, completed_encodedState s, toNat_encodedState_flen hc hfits,
    declaredLength_encodedState s⟩

/-- Settles O20, by the two outcomes of ENCODE. -/
theorem encodeStampsAndAdvancesEventId : Obligations.EncodeStampsAndAdvancesEventId := by
  intro s _
  rcases Nat.lt_or_ge s.cfg.maxPayload s.regs.plen.toNat with hlong | hfits
  · exact ⟨_, exec_encode_of_too_long hlong, fun hfits => absurd hfits (Nat.not_le.mpr hlong), fun _ => ⟨rfl, rfl⟩⟩
  · refine ⟨_, exec_encode_of_fits hfits, fun _ => ⟨(completed_encodedState s).err, fbHalf_encodedState_evt s, ?_⟩,
      fun hlong => absurd hfits (Nat.not_le.mpr hlong)⟩
    rw [encodedState_evt, BitVec.toNat_add]
    rfl

/-- Settles O21: the payload and the bytes behind the frame are none of ENCODE's output bytes. -/
theorem encodeFrame : Obligations.EncodeFrame := by
  intro s hfits
  refine ⟨_, exec_encode_of_fits hfits, completed_encodedState s, regsKept_encodedState s, fun i hi => ?_,
    othersKept_encodedState s⟩
  refine fbByte_encodedState_of_not_output s i ?_
  unfold EncodeOutput
  omega

/-- Settles O22: both length checks look at FLEN and BUF_SIZE alone, and end in `complete`. -/
theorem decodeChecksLengthRange : Obligations.DecodeChecksLengthRange := by
  rintro s code (⟨hshort, rfl⟩ | ⟨hmin, hlong, rfl⟩)
  · exact ⟨_, exec_decode_of_short hshort, completed_complete _ s, regsKept_complete _ s, fbKept_complete _ s,
      othersKept_complete _ s, fun fb epoch => exec_decode_of_short (s := { s with fb := fb, epoch := epoch }) hshort⟩
  · exact ⟨_, exec_decode_of_long hmin hlong, completed_complete _ s, regsKept_complete _ s, fbKept_complete _ s,
      othersKept_complete _ s, fun fb epoch => exec_decode_of_long (s := { s with fb := fb, epoch := epoch }) hmin hlong⟩

/-- Settles O23: every outcome in the length range records both checksums, and none looks at CRC. -/
theorem decodeRecordsBothChecksums : Obligations.DecodeRecordsBothChecksums := by
  intro s hmin hmax
  obtain ⟨t, hexec, hcalc, hrx, hcrc⟩ := exec_decode_records hmin hmax
  refine ⟨t, hexec, ?_, ?_, hcrc, exec_decode_setCrc hexec⟩
  · rw [hcalc, decodeChecksum, fbRange]
    simp only [Nat.zero_add]
    rfl
  · have hlo : s.regs.flen.toNat - 2 + 1 = s.regs.flen.toNat - 1 := by omega
    rw [hrx, carriedChecksum, fbHalf, hlo, be16]

/-- Settles O24: DECODE ends at the checksum comparison, with the checksums recorded. -/
theorem decodeReportsChecksumMismatch : Obligations.DecodeReportsChecksumMismatch :=
  fun s hmin hmax hne => ⟨_, exec_decode_of_checksum_ne hmin hmax hne, completed_complete_recordChecksums _ s,
    regsKept_complete_recordChecksums _ s, fbKept_complete _ _, othersKept_complete_recordChecksums _ s⟩

/-- Settles O25: DECODE ends at the length comparison, with the matching checksums recorded. -/
theorem decodeReportsLengthMismatch : Obligations.DecodeReportsLengthMismatch :=
  fun s hmin hmax hsum hlen => ⟨_, exec_decode_of_length_ne hmin hmax hsum hlen,
    completed_complete_recordChecksums _ s, hsum, rfl, regsKept_complete_recordChecksums _ s, fbKept_complete _ _,
    othersKept_complete_recordChecksums _ s⟩

/-- Settles O26: the published registers, each from its bytes. -/
theorem decodePublishesHeaderFields : Obligations.DecodePublishesHeaderFields := by
  intro s hmin hmax hsum hlen
  have hplen : (regValue (decodedState s) .plen).toNat = s.regs.flen.toNat - 25 := by
    have hlt := s.regs.flen.isLt
    rw [regValue, BitVec.toNat_setWidth, toNat_decodedState_plen, Nat.mod_eq_of_lt (by omega)]
  refine ⟨_, exec_decode_of_accepted hmin hmax hsum hlen, completed_complete_publishFields _ s,
    ?_, ?_, ?_, ?_, ?_, ?_, ?_, ?_, ?_, hplen, fbKept_decodedState s⟩
  all_goals
    rw [regValue, decodedState_regs]
    rfl

/-- Settles O27, by the outcomes of DECODE. -/
theorem decodeKeepsItsInputs : Obligations.DecodeKeepsItsInputs := by
  intro s
  rcases execDecode_cases s with ⟨_, he⟩ | ⟨_, he⟩ | ⟨_, _, ⟨_, he⟩ | ⟨_, _, he⟩ | ⟨_, _, he⟩⟩
  · exact ⟨_, he, fbKept_complete _ s, othersKept_complete _ s, (regsKept_complete _ s).mono (by decide)⟩
  · exact ⟨_, he, fbKept_complete _ s, othersKept_complete _ s, (regsKept_complete _ s).mono (by decide)⟩
  · exact ⟨_, he, fbKept_complete _ _, othersKept_complete_recordChecksums _ s,
      (regsKept_complete_recordChecksums _ s).mono (by decide)⟩
  · exact ⟨_, he, fbKept_complete _ _, othersKept_complete_recordChecksums _ s,
      (regsKept_complete_recordChecksums _ s).mono (by decide)⟩
  · exact ⟨_, he, fbKept_decodedState s, othersKept_complete_publishFields _ s, regsKept_complete_publishFields _ s⟩

/-- Settles O28: the checks and the published fields read FB below FLEN alone. -/
theorem decodeIgnoresBytesBeyondTheFrame : Obligations.DecodeIgnoresBytesBeyondTheFrame := by
  intro s s' t hregs hcfg hbytes hexec
  have hchecks (hmin : 25 ≤ s.regs.flen.toNat) : decodeChecksum s' = decodeChecksum s ∧
      carriedChecksum s' = carriedChecksum s ∧ declaredLength s' = declaredLength s := by
    refine ⟨?_, ?_, fbHalf_congr hbytes (by omega)⟩
    · rw [decodeChecksum, hregs, fbRange_congr 0 _ fun i _ hi => hbytes i (by omega), decodeChecksum]
    · rw [carriedChecksum, hregs, fbHalf_congr hbytes (by omega), carriedChecksum]
  rcases exec_decode_alike (by rw [hregs]) hcfg hchecks with
    ⟨code, he, he'⟩ | ⟨hmin, code, he, he'⟩ | ⟨hmin, he, he'⟩ <;>
    obtain rfl := Host.Outcome.next.inj (hexec.symm.trans he)
  · exact ⟨_, he', by rw [complete_regs, complete_regs, hregs], rfl⟩
  · obtain ⟨hcalc, hcarried, _⟩ := hchecks hmin
    refine ⟨_, he', ?_, rfl⟩
    rw [complete_regs, complete_regs, recordChecksums_regs, recordChecksums_regs, hregs, hcalc, hcarried]
  · obtain ⟨hcalc, hcarried, _⟩ := hchecks hmin
    refine ⟨_, he', ?_, rfl⟩
    rw [decodedState_regs, decodedState_regs, publishedRegs_congr hbytes (by omega) hregs, hcalc, hcarried]

/-- Settles O29: DECODE accepts the frame ENCODE built, and each field reads back from the bytes it was written to. -/
theorem roundTripReproducesEveryField : Obligations.RoundTripReproducesEveryField := by
  intro s hc hfits
  have hflen := toNat_encodedState_flen hc hfits
  have hcalc := decodeChecksum_encodedState hc hfits
  have hcarried := carriedChecksum_encodedState hc hfits
  have hpre : fbHalf (encodedState s) 0 = s.regs.txPre := fbHalf_encodedState_header (by decide) rfl rfl
  have hlen : (declaredLength (encodedState s)).toNat = s.regs.plen.toNat + 25 := by
    rw [declaredLength_encodedState, hflen]
  obtain ⟨hsidHi, hsidLo⟩ := sid_encodedState s
  obtain ⟨hridHi, hridLo⟩ := rid_encodedState s
  have hrsv : fbHalf (encodedState s) 21 = 0 := fbHalf_encodedState_header (by decide) rfl rfl
  have hplen : BitVec.ofNat 16 ((encodedState s).regs.flen.toNat - 25) = s.regs.plen := by
    rw [hflen, Nat.add_sub_cancel, BitVec.ofNat_toNat, BitVec.setWidth_eq]
  refine ⟨encodedState s, decodedState (encodedState s), exec_encode_of_fits hfits, exec_decode_encodedState hc hfits,
    hflen, completed_complete_publishFields _ _, ?_⟩
  rw [decodedState_regs (encodedState s), encodedState_csumCalc]
  refine ⟨hpre, hlen, hsidHi, hsidLo, hridHi, hridLo, hdr_encodedState s, fbHalf_encodedState_evt s, hrsv, hplen,
    hcarried.trans hcalc.symm, hcalc, fun k hk => ?_⟩
  have hout : ¬ EncodeOutput s (23 + k) := by
    unfold EncodeOutput
    omega
  rw [fbKept_decodedState (encodedState s) (23 + k) trivial, fbByte_encodedState_of_not_output s _ hout]

/-- Settles O30: an inverted bit below the checksum changes the recomputed checksum alone, one in the checksum the carried
one alone. -/
theorem singleBitErrorIsDetected : Obligations.SingleBitErrorIsDetected := by
  intro s t i k hexec hok hi
  obtain ⟨hmin, hmax, hsum, rfl⟩ := accepted_of_ok hexec hok
  have hb := xor_twoPow_ne (fbByte s i) k
  generalize fbByte s i ^^^ BitVec.twoPow 8 k.val = b at hb ⊢
  have hcompleted : Completed .checksumMismatch s (complete .checksumMismatch (recordChecksums (fbWrite i b s))) :=
    ⟨rfl, rfl, rfl, rfl, rfl⟩
  rw [decodedState_csumCalc, decodedState_csumRx]
  rcases Nat.lt_or_ge i (s.regs.flen.toNat - 2) with hbody | htail
  · have hcalc := decodeChecksum_fbWrite_ne hb hbody
    have hrx := carriedChecksum_fbWrite_of_lt (b := b) hbody
    exact ⟨_, exec_decode_of_checksum_ne hmin hmax (by rwa [hrx, ← hsum]), hcompleted, fun _ => hcalc,
      fun htail => absurd hbody (Nat.not_lt.mpr htail)⟩
  · have hcalc := decodeChecksum_fbWrite_of_ge (b := b) htail
    have hrx := carriedChecksum_fbWrite_ne hb htail hi (by omega)
    exact ⟨_, exec_decode_of_checksum_ne hmin hmax (by rw [hcalc, hsum]; exact hrx.symm), hcompleted,
      fun hbody => absurd hbody (Nat.not_lt.mpr htail), fun _ => ⟨hcalc, hrx⟩⟩

/-- Settles O31: each ENCODE stamps the EVT it finds, one more than the last one's modulo 2^16. -/
theorem eventIdsCountUp : Obligations.EventIdsCountUp := by
  intro n before after hencode hkept
  have hafter (k : Nat) (hk : k < n) : after k = encodedState (before k) :=
    eq_encodedState_of_ok (hencode k hk).1 (hencode k hk).2
  have hid (k : Nat) (hk : k < n) : (fbHalf (after k) 17).toNat = ((before 0).regs.evt.toNat + k) % 2 ^ 16 := by
    rw [hafter k hk, fbHalf_encodedState_evt, evt_of_successive_encodes hafter hkept k hk]
  refine ⟨hid, fun hfits j k hjk hk => ?_⟩
  rw [hid j (by omega), hid k hk, Nat.mod_eq_of_lt (by omega), Nat.mod_eq_of_lt (by omega)]
  omega

/-- Settles O32: over header and payload the CRC is the checksum, whose own two bytes follow. -/
theorem encodedFrameHasZeroResidue : Obligations.EncodedFrameHasZeroResidue := by
  intro s hc hfits
  have hlen : (encodedState s).regs.flen.toNat = 23 + s.regs.plen.toNat + 2 := by
    rw [toNat_encodedState_flen hc hfits]
    omega
  have hlo : 23 + s.regs.plen.toNat + 1 = 24 + s.regs.plen.toNat := by omega
  refine ⟨_, exec_encode_of_fits hfits, ?_⟩
  calc crc16 (fbRange (encodedState s) 0 (encodedState s).regs.flen.toNat) crcInitValue
      = crc16 [hiByte (encodeChecksum s), loByte (encodeChecksum s)] (encodeChecksum s) := by
        rw [hlen, fbRange_add_two, crc16_append, crc16_fbRange_encodedState, hlo, fbByte_encodedState_checksum_hi,
          fbByte_encodedState_checksum_lo]
    _ = 0x0000 := crc16_own_bytes _

end Sys2Proof.Machine

/-! SUPPORT. The CRC step over XORs, the ends of the CRC commands, and CRC_BUF by its range: lemmas first, then the
obligations on the CRC generator (41_crc.md). -/

namespace Sys2Proof.Machine

variable {s t : State}

/-! ### The CRC step over XORs (41_crc.md R180, R182) -/

theorem xor_xor_xor_comm (w x y z : Half) : (w ^^^ x) ^^^ (y ^^^ z) = (w ^^^ y) ^^^ (x ^^^ z) := by
  ac_rfl

/-- The polynomial enters where one of the two top bits is 1; where both are, the two polynomials cancel. -/
theorem crcShift_xor (c d : Half) : crcShift (c ^^^ d) = crcShift c ^^^ crcShift d := by
  unfold crcShift
  rw [BitVec.getLsbD_xor, BitVec.shiftLeft_xor_distrib]
  cases c.getLsbD 15 <;> cases d.getLsbD 15
  case false.false => rfl
  case false.true => exact BitVec.xor_assoc _ _ _
  case true.false =>
    change (c <<< 1 ^^^ d <<< 1) ^^^ 0x1021#16 = (c <<< 1 ^^^ 0x1021#16) ^^^ d <<< 1
    ac_rfl
  case true.true =>
    change c <<< 1 ^^^ d <<< 1 = (c <<< 1 ^^^ 0x1021#16) ^^^ (d <<< 1 ^^^ 0x1021#16)
    rw [xor_xor_xor_comm, BitVec.xor_self, BitVec.xor_zero]

theorem crcShifts_xor (n : Nat) : ∀ c d : Half, crcShifts n (c ^^^ d) = crcShifts n c ^^^ crcShifts n d := by
  induction n with
  | zero => intro c d; rfl
  | succ n ih =>
    intro c d
    rw [crcShifts, crcShift_xor, ih, crcShifts, crcShifts]

theorem crc16Step_xor (c₁ c₂ : Half) (b₁ b₂ : Byte) :
    crc16Step (c₁ ^^^ c₂) (b₁ ^^^ b₂) = crc16Step c₁ b₁ ^^^ crc16Step c₂ b₂ := by
  unfold crc16Step
  rw [BitVec.setWidth_xor, BitVec.shiftLeft_xor_distrib, xor_xor_xor_comm, crcShifts_xor]

/-! ### The end of a command that sets CRC -/

theorem completed_complete_setCrc (code : ErrCode) (c : Half) (s : State) :
    Completed code s (complete code (setCrc c s)) :=
  ⟨rfl, rfl, rfl, rfl, rfl⟩

theorem fbKept_complete_setCrc (code : ErrCode) (c : Half) (s : State) :
    FbKept (fun _ => True) s (complete code (setCrc c s)) :=
  fun _ _ => rfl

theorem othersKept_complete_setCrc (code : ErrCode) (c : Half) (s : State) :
    OthersKept s (complete code (setCrc c s)) :=
  ⟨rfl, rfl, rfl, rfl, rfl, rfl, rfl⟩

/-! ### CRC_BUF by its range (R185) -/

/-- The state a CRC_BUF whose range lies inside FB ends in. -/
abbrev crcBufState (s : State) : State :=
  complete .ok (setCrc (crc16 (fbRange s s.regs.crcOff.toNat s.regs.crcLen.toNat) s.regs.crc) s)

theorem exec_crcBuf_of_inside (h : s.regs.crcOff.toNat + s.regs.crcLen.toNat ≤ s.cfg.bufSize) :
    exec .crcBuf s = .next (crcBufState s) :=
  if_neg (Nat.not_lt.mpr h)

theorem exec_crcBuf_of_beyond (h : s.cfg.bufSize < s.regs.crcOff.toNat + s.regs.crcLen.toNat) :
    exec .crcBuf s = .next (complete .rangeError s) :=
  if_pos h

/-- A CRC_BUF with its range set up just before it. -/
theorem exec_crcBuf_withCrcRange {o n : Half} (h : o.toNat + n.toNat ≤ s.cfg.bufSize) :
    exec .crcBuf (withCrcRange o n s) = .next (crcBufState (withCrcRange o n s)) :=
  exec_crcBuf_of_inside h

theorem crcBufState_withCrcRange_crc (o n : Half) (s : State) :
    (crcBufState (withCrcRange o n s)).regs.crc = crc16 (fbRange s o.toNat n.toNat) s.regs.crc :=
  rfl

/-- A CRC_BUF and the set-up of its range leave FB alone. -/
theorem fbRange_crcBufState_withCrcRange (o n : Half) (s : State) (i m : Nat) :
    fbRange (crcBufState (withCrcRange o n s)) i m = fbRange s i m :=
  rfl

/-! ### The range of an encoded frame's checksum (R187) -/

/-- An ENCODE that ends with OK has found a payload that is not too long (40_framer.md R141). -/
theorem fits_of_encode_ok (hexec : exec .encode s = .next t) (hok : t.regs.err = errValue .ok) :
    s.regs.plen.toNat ≤ s.cfg.maxPayload := by
  refine Nat.not_lt.mp fun hlong => ?_
  cases Host.Outcome.next.inj ((exec_encode_of_too_long hlong).symm.trans hexec)
  exact absurd hok (by decide : errValue .payloadTooLong ≠ errValue .ok)

/-- FLEN - 2, as a 16-bit register, is the number of header and payload bytes. -/
theorem toNat_encodedState_flen_sub_two (hc : s.cfg.legal = true) (h : s.regs.plen.toNat ≤ s.cfg.maxPayload) :
    ((encodedState s).regs.flen - 2).toNat = 23 + s.regs.plen.toNat := by
  have hflen := toNat_encodedState_flen hc h
  generalize (encodedState s).regs.flen = f at hflen ⊢
  bv_omega

/-! ### The obligations -/

/-- Settles O13: the sum of offset and length decides between the two outcomes of CRC_BUF. -/
theorem crcBufAddsRangeOrReportsRangeError : Obligations.CrcBufAddsRangeOrReportsRangeError := by
  intro s
  constructor
  · intro hinside
    exact ⟨_, exec_crcBuf_of_inside hinside, completed_complete_setCrc .ok _ s, rfl, regsKept_complete_setCrc .ok _ s,
      fbKept_complete_setCrc .ok _ s, othersKept_complete_setCrc .ok _ s⟩
  · intro hbeyond
    exact ⟨_, exec_crcBuf_of_beyond hbeyond, completed_complete _ s, regsKept_complete _ s, fbKept_complete _ s,
      othersKept_complete _ s⟩

/-- Settles O14: each shift of the step is linear, and so is the way the byte enters. -/
theorem crcStepIsLinear : Obligations.CrcStepIsLinear :=
  crc16Step_xor

/-- Settles O15: the second CRC_BUF starts where the first range ends, from the CRC the first one left, in the same
FB. -/
theorem crcChains : Obligations.CrcChains := by
  refine ⟨crc16_append, fun s t o n m hinside hwrap hexec => ?_⟩
  have hend : (o + n).toNat = o.toNat + n.toNat := BitVec.toNat_add_of_lt (by omega)
  have hlen : (n + m).toNat = n.toNat + m.toNat := BitVec.toNat_add_of_lt (by omega)
  obtain rfl := Host.Outcome.next.inj (hexec.symm.trans (exec_crcBuf_withCrcRange (by omega)))
  refine ⟨_, _, exec_crcBuf_withCrcRange (hend ▸ hinside), exec_crcBuf_withCrcRange (by omega), ?_⟩
  rw [crcBufState_withCrcRange_crc, crcBufState_withCrcRange_crc, fbRange_crcBufState_withCrcRange,
    crcBufState_withCrcRange_crc, hend, hlen, fbRange_append, crc16_append]

/-- Settles O33: the range is the header and the payload of the frame, whose CRC from 0xFFFF ENCODE has recorded. -/
theorem crcBufOfEncodedFrameIsItsChecksum : Obligations.CrcBufOfEncodedFrameIsItsChecksum := by
  intro s t u hc hexec hok hcfg hfb hepoch hoff hlen
  have hfits := fits_of_encode_ok hexec hok
  obtain rfl := eq_encodedState_of_ok hexec hok
  have hn : u.regs.crcLen.toNat = 23 + s.regs.plen.toNat := by
    rw [hlen, toNat_encodedState_flen_sub_two hc hfits]
  have ho : u.regs.crcOff.toNat = 0 := congrArg BitVec.toNat hoff
  have hinside : u.regs.crcOff.toNat + u.regs.crcLen.toNat ≤ u.cfg.bufSize := by
    rw [hcfg, (othersKept_encodedState s).cfg, ho, hn]
    simp only [Config.legal, Bool.and_eq_true, decide_eq_true_eq] at hc
    rw [Config.maxPayload] at hfits
    omega
  have hbytes : fbRange u 0 (23 + s.regs.plen.toNat) = fbRange (encodedState s) 0 (23 + s.regs.plen.toNat) :=
    fbRange_congr _ _ fun i _ _ => fbByte_congr hfb hepoch i
  refine ⟨complete .ok (setCrc crcInitValue u), _, rfl, exec_crcBuf_of_inside hinside, rfl, ?_⟩
  calc crc16 (fbRange u u.regs.crcOff.toNat u.regs.crcLen.toNat) crcInitValue
      = crc16 (fbRange (encodedState s) 0 (23 + s.regs.plen.toNat)) crcInitValue := by rw [ho, hn, hbytes]
    _ = (encodedState s).regs.csumCalc := crc16_fbRange_encodedState s

/-- Settles O11: CRC_INIT sets CRC and completes. -/
theorem crcInitSetsInitialValue : Obligations.CrcInitSetsInitialValue :=
  fun s => ⟨complete .ok (setCrc crcInitValue s), rfl, completed_complete_setCrc .ok _ s, rfl,
    regsKept_complete_setCrc .ok _ s, fbKept_complete_setCrc .ok _ s, othersKept_complete_setCrc .ok _ s⟩

/-- Settles O12: CRC_BYTE's operand is the DATA8 field of its word. -/
theorem crcByteAddsItsOperand : Obligations.CrcByteAddsItsOperand := by
  intro s d
  have hdata : (encodeCmd (.crcByte d)).extractLsb' 8 8 = d := cmdData8_append 0 d 0x11
  refine ⟨complete .ok (setCrc (crc16Step s.regs.crc d) s), rfl, completed_complete_setCrc .ok _ s, ?_,
    regsKept_complete_setCrc .ok _ s, fbKept_complete_setCrc .ok _ s, othersKept_complete_setCrc .ok _ s⟩
  rw [hdata]
  rfl

end Sys2Proof.Machine

/-! SUPPORT. When an ENCODE is pending, the bytes an aborted one leaves, and the writes of CTRL and STATUS: lemmas
first, then the obligations on the control (42_control.md). -/

namespace Sys2Proof.Machine

variable {s : State}

/-! ### A pending ENCODE and the bytes it may have written (R206) -/

/-- The engine takes a pending word for an ENCODE exactly when the word is ENCODE's encoding. -/
theorem encodePending_iff (s : State) : encodePending s = true ↔ s.pend = some (encodeCmd .encode) := by
  constructor
  · intro h
    cases hpend : s.pend with
    | none => simp [encodePending, hpend] at h
    | some w =>
      cases hdecode : decodeCmd w with
      | error e => simp [encodePending, hpend, hdecode] at h
      | ok i =>
        cases i with
        | encode => rw [encodeCmd_of_decodeCmd hdecode]
        | nop | decode | crcInit | crcByte d | crcBuf => simp [encodePending, hpend, hdecode] at h
  · intro h
    simp only [encodePending, h, decodeCmd_encodeCmd]

theorem mem_encodeOutputs (s : State) (j : Nat) : j ∈ encodeOutputs s ↔ EncodeOutput s j := by
  simp [encodeOutputs, EncodeOutput]

/-- A listed index inside FB ends with the value of one of the draws made: its last one. -/
theorem fbByte_fbDraw_of_mem (idxs : List Nat) : ∀ (s : State) (j : Nat), j ∈ idxs → j < s.cfg.bufSize →
    ∃ n, s.draws ≤ n ∧ fbByte (fbDraw idxs s) j = Config.freeByte n := by
  induction idxs with
  | nil => intro s j hj; cases hj
  | cons i rest ih =>
    intro s j hj hlt
    rw [fbDraw]
    by_cases hrest : j ∈ rest
    · split
      · obtain ⟨n, hn, hbyte⟩ := ih { fbWrite i (Config.freeByte s.draws) s with draws := s.draws + 1 } j hrest hlt
        exact ⟨n, Nat.le_of_succ_le hn, hbyte⟩
      · exact ih s j hrest hlt
    · obtain rfl : j = i := (List.mem_cons.mp hj).resolve_right hrest
      refine ⟨s.draws, Nat.le_refl _, ?_⟩
      rw [if_pos hlt, fbByte_fbDraw rest _ j hrest]
      exact (fbByte_fbWrite j j (Config.freeByte s.draws) s).trans (if_pos rfl)

/-- The output bytes of an ENCODE that a soft reset aborts hold free values. -/
theorem fbByte_softReset_of_output {j : Nat} (hpending : encodePending s = true) (hout : EncodeOutput s j)
    (hj : j < s.cfg.bufSize) : ∃ n, s.draws ≤ n ∧ fbByte (softReset s) j = Config.freeByte n := by
  have habort : abortPending s = fbDraw (encodeOutputs s) s := if_pos hpending
  rw [fbByte_congr (s := fbDraw (encodeOutputs s) s) (by rw [softReset_fb, habort]) (by simp)]
  exact fbByte_fbDraw_of_mem _ s j ((mem_encodeOutputs s j).mpr hout) hj

/-! ### The writes of CTRL and STATUS (R203, R205) -/

/-- A write of CTRL with SRST = 1 is the soft reset, BUSY or not: CTRL is no register of the hazard list. -/
theorem memWrite4_ctrl_of_srst {v : Word} (hv : v.getLsbD 1 = true) (s : State) :
    memWrite4 0x0000 v s = .next (respond .writeOk (softReset s)) := by
  have hwrite : memWrite4 0x0000 v s = .next (respond .writeOk (writeCtrl v s)) := memWrite4_regOffset .ctrl v s
  rw [hwrite, writeCtrl, if_pos hv]

/-- A write of STATUS clears its flags, BUSY or not: STATUS is no register of the hazard list (R203). -/
theorem memWrite4_status (v : Word) (s : State) :
    memWrite4 0x0004 v s = .next (respond .writeOk { s with regs := clearStatus v s.regs }) :=
  memWrite4_regOffset .status v s

theorem clearStatus_done_iff (v : Word) (g : Regs) :
    (clearStatus v g).done = true ↔ g.done = true ∧ v.getLsbD 1 = false := by
  simp [clearStatus]

theorem clearStatus_ovr_iff (v : Word) (g : Regs) :
    (clearStatus v g).ovr = true ↔ g.ovr = true ∧ v.getLsbD 8 = false := by
  simp [clearStatus]

/-- With DONE = 0 the interrupt is low (60_exceptions.md R230). -/
theorem irq_of_not_done (h : s.regs.done = false) : s.irq = false := by
  rw [State.irq, h, Bool.and_false]

/-! ### The obligations -/

/-- Settles O7: a word that is no encoding is rejected by the decoder, and the engine then only completes. -/
theorem illegalWordOnlyReportsIllegalCmd : Obligations.IllegalWordOnlyReportsIllegalCmd := by
  intro s w hpend hword
  have hdecode := decodeCmd_of_not_encoding hword
  refine ⟨completeIllegal s, engineStep_of_rejected hpend hdecode, completed_complete _ s, regsKept_complete _ s,
    fbKept_complete _ s, othersKept_complete _ s, fun rest hturns => ?_⟩
  rw [step, nextTurn_of_listed hturns, takeTurn_of_listed hturns]
  exact engineStep_of_rejected hpend hdecode

/-- Settles O37: the soft reset leaves the register bits of the power-on reset and no pending command. -/
theorem softResetRestoresEveryRegister : Obligations.SoftResetRestoresEveryRegister := by
  intro s v hv
  exact ⟨_, memWrite4_ctrl_of_srst hv s, regValue_congr rfl rfl, rfl, irq_of_not_done rfl, softReset_cfg s,
    softReset_epoch s⟩

/-- Settles O38: only a pending ENCODE is drawn for, at its output bytes inside FB. -/
theorem softResetKeepsFrameBytes : Obligations.SoftResetKeepsFrameBytes := by
  intro s v hv
  refine ⟨_, memWrite4_ctrl_of_srst hv s, fun j hkept => ?_, fun hpend j hout hj => ?_⟩
  · rw [fbByte_respond]
    refine fbByte_softReset s j ?_
    rintro ⟨hpending, hout⟩
    exact hkept ((encodePending_iff s).mp hpending) hout
  · rw [fbByte_respond]
    exact fbByte_softReset_of_output ((encodePending_iff s).mpr hpend) hout hj

/-- Settles O47: the write touches the bits DONE and OVR alone. -/
theorem statusWriteClearsOnlyWrittenOnes : Obligations.StatusWriteClearsOnlyWrittenOnes := by
  intro s v
  refine ⟨_, memWrite4_status v s, rfl, rfl, rfl, regsKept_status_of_flags rfl, rfl, clearStatus_done_iff v s.regs,
    clearStatus_ovr_iff v s.regs, fun hv => irq_of_not_done ?_⟩
  rw [respond_regs, clearStatus, hv, Bool.not_true, Bool.and_false]

/-- Settles O10: NOP's meaning is `complete` alone. -/
theorem nopOnlyCompletes : Obligations.NopOnlyCompletes :=
  fun s => ⟨complete .ok s, rfl, completed_complete .ok s, regsKept_complete .ok s, fbKept_complete .ok s,
    othersKept_complete .ok s⟩

end Sys2Proof.Machine

/-! SUPPORT. How the engine ends a command, what a command that fails has written, when DONE can rise, and a CMD write
that races with a completion: lemmas first, then the obligations on the completions and the interrupt
(60_exceptions.md). -/

namespace Sys2Proof.Machine

variable {s t u : State}

/-! ### The ends of the commands (R220 to R223) -/

/-- What rule R220 lists for each command: OK, and the codes of its own checks. -/
abbrev ListedCode (i : Instr) (code : ErrCode) : Prop :=
  code = .ok ∨ (i = .encode ∧ code = .payloadTooLong) ∨ (i = .crcBuf ∧ code = .rangeError) ∨
    (i = .decode ∧ code ∈ [.frameTooShort, .checksumMismatch, .lengthMismatch, .frameTooLong])

/-- Every command completes, with a code listed for it, and changes nothing outside the block. -/
theorem exec_completes (i : Instr) (s : State) :
    ∃ t code, exec i s = .next t ∧ Completed code s t ∧ OthersKept s t ∧ ListedCode i code := by
  cases i with
  | nop => exact ⟨_, .ok, rfl, completed_complete _ s, othersKept_complete _ s, .inl rfl⟩
  | crcInit | crcByte d =>
    exact ⟨_, .ok, rfl, completed_complete_setCrc _ _ s, othersKept_complete_setCrc _ _ s, .inl rfl⟩
  | encode =>
    rcases execEncode_cases s with ⟨_, he⟩ | ⟨_, he⟩
    · exact ⟨_, _, he, completed_complete _ s, othersKept_complete _ s, .inr (.inl ⟨rfl, rfl⟩)⟩
    · exact ⟨_, _, he, completed_encodedState s, othersKept_encodedState s, .inl rfl⟩
  | crcBuf =>
    rcases execCrcBuf_cases s with ⟨_, he⟩ | ⟨_, he⟩
    · exact ⟨_, _, he, completed_complete _ s, othersKept_complete _ s, .inr (.inr (.inl ⟨rfl, rfl⟩))⟩
    · exact ⟨_, _, he, completed_complete_setCrc _ _ s, othersKept_complete_setCrc _ _ s, .inl rfl⟩
  | decode =>
    rcases execDecode_cases s with ⟨_, he⟩ | ⟨_, he⟩ | ⟨_, _, ⟨_, he⟩ | ⟨_, _, he⟩ | ⟨_, _, he⟩⟩
    · exact ⟨_, _, he, completed_complete _ s, othersKept_complete _ s, by decide⟩
    · exact ⟨_, _, he, completed_complete _ s, othersKept_complete _ s, by decide⟩
    · exact ⟨_, _, he, completed_complete_recordChecksums _ s, othersKept_complete_recordChecksums _ s, by decide⟩
    · exact ⟨_, _, he, completed_complete_recordChecksums _ s, othersKept_complete_recordChecksums _ s, by decide⟩
    · exact ⟨_, _, he, completed_complete_publishFields _ s, othersKept_complete_publishFields _ s, .inl rfl⟩

theorem engineStep_of_idle (h : s.pend = none) : engineStep s = .next s := by
  simp only [engineStep, h]

/-- The engine completes whatever word is pending, an illegal one too (42_control.md R201). -/
theorem engineStep_completes {w : Word} (hpend : s.pend = some w) :
    ∃ t code, engineStep s = .next t ∧ Completed code s t ∧ OthersKept s t := by
  cases hdecode : decodeCmd w with
  | ok i =>
    obtain ⟨t, code, hexec, hcompleted, hothers, _⟩ := exec_completes i s
    exact ⟨t, code, (engineStep_of_decoded hpend hdecode).trans hexec, hcompleted, hothers⟩
  | error e =>
    exact ⟨_, _, engineStep_of_rejected hpend hdecode, completed_complete _ s, othersKept_complete _ s⟩

/-- A DECODE that fails stops before it writes anything, or at one of its comparisons, the checksums written. -/
theorem exec_decode_failed (hexec : exec .decode s = .next t) (herr : t.regs.err ≠ errValue .ok) :
    (∃ code, t = complete code s) ∨
      ∃ code ∈ [.checksumMismatch, .lengthMismatch], t = complete code (recordChecksums s) := by
  rcases execDecode_cases s with ⟨_, he⟩ | ⟨_, he⟩ | ⟨_, _, ⟨_, he⟩ | ⟨_, _, he⟩ | ⟨_, _, he⟩⟩ <;>
    obtain rfl := Host.Outcome.next.inj (hexec.symm.trans he)
  · exact .inl ⟨_, rfl⟩
  · exact .inl ⟨_, rfl⟩
  · exact .inr ⟨_, by decide, rfl⟩
  · exact .inr ⟨_, by decide, rfl⟩
  · exact absurd (completed_complete_publishFields .ok s).err herr

/-- A command that fails has done nothing but complete, or is a DECODE that recorded the checksums first (R223). -/
theorem exec_failed {i : Instr} (hexec : exec i s = .next t) (herr : t.regs.err ≠ errValue .ok) :
    (∃ code, t = complete code s) ∨
      (i = .decode ∧ ∃ code ∈ [.checksumMismatch, .lengthMismatch], t = complete code (recordChecksums s)) := by
  rcases exec_next hexec with hplain | ⟨_, _, rfl⟩ | ⟨_, rfl⟩ | ⟨rfl, _⟩ | ⟨_, rfl⟩
  · exact .inl hplain
  · exact absurd (completed_encodedState s).err herr
  · exact absurd rfl herr
  · exact (exec_decode_failed hexec herr).imp id fun hrecorded => ⟨rfl, hrecorded⟩
  · exact absurd (completed_complete_publishFields .ok s).err herr

/-! ### The interrupt (R230) -/

/-- A write of CTRL with SRST = 0 sets IE alone, BUSY or not (10_state.md R24). -/
theorem memWrite4_ctrl_of_not_srst {v : Word} (hv : v.getLsbD 1 = false) (s : State) :
    memWrite4 0x0000 v s = .next (respond .writeOk { s with regs := { s.regs with ie := v.getLsbD 0 } }) := by
  have hwrite : memWrite4 0x0000 v s = .next (respond .writeOk (writeCtrl v s)) := memWrite4_regOffset .ctrl v s
  rw [hwrite, writeCtrl, if_neg (Bool.eq_false_iff.mp hv)]

theorem irq_eq_bits (s : State) : s.irq = ((regValue s .ctrl).getLsbD 0 && (regValue s .status).getLsbD 1) := by
  have hie : (ctrlWord s).getLsbD 0 = s.regs.ie := by simp [ctrlWord]
  have hdone : (statusWord s).getLsbD 1 = s.regs.done := getLsbD_statusWord s 1
  rw [regValue, regValue, hie, hdone, State.irq]

/-! ### What raises DONE, and what becomes of a pending word (R222, R225) -/

/-- No register write raises DONE. -/
theorem done_of_writeReg {r : RegName} {v : Word} (h : (writeReg r v s).regs.done = true) : s.regs.done = true := by
  rcases writeReg_cases r v s with
    ⟨_, _, hw⟩ | ⟨_, _, hw⟩ | ⟨_, hw⟩ | ⟨_, _, hw⟩ | ⟨_, _, hw⟩ | ⟨_, _, _, hw⟩ <;> rw [hw] at h
  · cases h
  · exact h
  · exact ((clearStatus_done_iff v s.regs).mp h).left
  · cases h
  · exact h
  · rwa [storeReg_done] at h

/-- The host does not raise DONE. -/
theorem done_of_hostStep (h : hostStep s = .next t) (hdone : t.regs.done = true) : s.regs.done = true := by
  rcases hostStep_next h with ⟨_, hregs, _⟩ | ⟨_, _, _, _, _, _, rfl⟩ | ⟨_, _, _, _, _, rfl⟩
  · rwa [hregs] at hdone
  · exact done_of_writeReg hdone
  · exact hdone

/-- A step that raises DONE is the engine's, on a pending command, which it takes away. -/
theorem step_raises_done (h : step s = .next t) (hbefore : s.regs.done = false) (hafter : t.regs.done = true) :
    nextTurn s = .engine ∧ busy s = true ∧ t.pend = none := by
  have hrises : s.regs.done ≠ true := Bool.eq_false_iff.mp hbefore
  rcases step_cases s with ⟨_, hs⟩ | ⟨hturn, hs⟩ | ⟨_, hs⟩ <;> rw [hs] at h
  · exact absurd (done_of_hostStep h hafter) hrises
  · cases hpend : s.pend with
    | none =>
      obtain rfl := Host.Outcome.next.inj ((engineStep_of_idle (s := takeTurn s) hpend).symm.trans h)
      exact absurd hafter hrises
    | some w =>
      obtain ⟨t', ht', hended⟩ := engineStep_ends (takeTurn s)
      obtain rfl := Host.Outcome.next.inj (ht'.symm.trans h)
      exact ⟨hturn, (busy_iff s).mpr ⟨w, hpend⟩, hended⟩
  · cases h
    cases hafter

/-- A pending word is pending after a step too, or no word is. -/
theorem step_keeps_or_ends_pending {w : Word} (h : step s = .next t) (hpend : s.pend = some w) :
    t.pend = some w ∨ t.pend = none := by
  rcases step_cases s with ⟨_, hs⟩ | ⟨_, hs⟩ | ⟨_, hs⟩ <;> rw [hs] at h
  · have hbusy : busy (takeTurn s) = true := (busy_iff s).mpr ⟨w, hpend⟩
    rcases hostStep_of_busy hbusy with ⟨f, hf⟩ | ⟨t', ht', hend⟩
    · cases hf.symm.trans h
    · obtain rfl := Host.Outcome.next.inj (ht'.symm.trans h)
      exact hend.symm.imp (fun hstill => hstill.pend.trans hpend) id
  · obtain ⟨t', ht', hended⟩ := engineStep_ends (takeTurn s)
    obtain rfl := Host.Outcome.next.inj (ht'.symm.trans h)
    exact .inr hended
  · cases h
    exact .inr rfl

/-! ### The host with no line left, and with a CMD write as its next line (R225) -/

theorem hostStep_of_ended (h : s.host.prog.length ≤ s.host.pc) : hostStep s = .next s := by
  have hline : s.host.prog[s.host.pc]? = none := List.getElem?_eq_none h
  simp only [hostStep, hline]

theorem hostStep_of_cmd_line {w : Word} (h : s.host.prog[s.host.pc]? = some (.write4 (regOffset .cmd) w)) :
    hostStep s = .next (hostAdvance (respond .writeOk (writeCmd w s))) := by
  have hwrite : memWrite4 (regOffset .cmd) w s = .next (respond .writeOk (writeCmd w s)) := memWrite4_regOffset .cmd w s
  rw [hostStep_of_line h, execLine, hwrite, advanceOutcome]

theorem hostStep_accepts_cmd {w : Word} (hidle : s.pend = none)
    (hline : s.host.prog[s.host.pc]? = some (.write4 (regOffset .cmd) w)) :
    ∃ t, hostStep s = .next t ∧ t.pend = some w ∧ t.regs.ovr = s.regs.ovr := by
  have haccept : writeCmd w s = acceptCmd w s := if_neg (Bool.eq_false_iff.mp ((not_busy_iff s).mpr hidle))
  refine ⟨_, hostStep_of_cmd_line hline, ?_⟩
  rw [haccept]
  exact ⟨rfl, rfl⟩

theorem hostStep_drops_cmd {w w' : Word} (hpend : s.pend = some w)
    (hline : s.host.prog[s.host.pc]? = some (.write4 (regOffset .cmd) w')) :
    ∃ t, hostStep s = .next t ∧ t.pend = some w ∧ t.regs.ovr = true ∧ t.turns = s.turns := by
  have hdrop : writeCmd w' s = { s with regs := { s.regs with ovr := true } } := if_pos ((busy_iff s).mpr ⟨w, hpend⟩)
  refine ⟨_, hostStep_of_cmd_line hline, ?_⟩
  rw [hdrop]
  exact ⟨hpend, rfl, rfl⟩

/-! ### Two listed turns (R233, 20_memory.md R85) -/

theorem step_of_host_listed {rest : List Turn} (h : s.turns = .host :: rest) : step s = hostStep (takeTurn s) := by
  rw [step, nextTurn_of_listed h]

theorem step_of_engine_listed {rest : List Turn} (h : s.turns = .engine :: rest) :
    step s = engineStep (takeTurn s) := by
  rw [step, nextTurn_of_listed h]

theorem run_two_of_next (hfirst : step s = .next t) (hsecond : step t = .next u) :
    Sys2Proof.core.run 2 s = .next u :=
  (run_succ_of_next hfirst 1).trans (run_succ_of_next hsecond 0)

section Race

variable {w w' : Word} (hpend : s.pend = some w)
  (hline : s.host.prog[s.host.pc]? = some (.write4 (regOffset .cmd) w'))

include hpend hline

/-- The completion first: the CMD write finds BUSY = 0. -/
theorem run_engine_then_cmd (hturns : s.turns = [.engine, .host]) :
    ∃ t, Sys2Proof.core.run 2 s = .next t ∧ t.pend = some w' ∧ t.regs.ovr = s.regs.ovr := by
  obtain ⟨t, code, hengine, hcompleted, hothers⟩ := engineStep_completes (s := takeTurn s) hpend
  have hlisted : t.turns = [.host] := by rw [hothers.turns, takeTurn_turns, hturns, List.tail_cons]
  have hnext : t.host.prog[t.host.pc]? = some (.write4 (regOffset .cmd) w') := by rwa [hothers.host, takeTurn_host]
  obtain ⟨u, hhost, haccepted, hovr⟩ := hostStep_accepts_cmd (s := takeTurn t) hcompleted.notPending hnext
  exact ⟨u, run_two_of_next ((step_of_engine_listed hturns).trans hengine) ((step_of_host_listed hlisted).trans hhost),
    haccepted, hovr.trans hcompleted.ovr⟩

/-- The CMD write first: it finds BUSY = 1, and the completion leaves OVR as the write set it. -/
theorem run_cmd_then_engine (hturns : s.turns = [.host, .engine]) :
    ∃ t, Sys2Proof.core.run 2 s = .next t ∧ t.pend = none ∧ t.regs.ovr = true ∧ t.regs.done = true := by
  obtain ⟨t, hhost, hstill, hovr, hkept⟩ := hostStep_drops_cmd (s := takeTurn s) hpend hline
  have hlisted : t.turns = [.engine] := by rw [hkept, takeTurn_turns, hturns, List.tail_cons]
  obtain ⟨u, code, hengine, hcompleted, _⟩ := engineStep_completes (s := takeTurn t) hstill
  exact ⟨u, run_two_of_next ((step_of_host_listed hturns).trans hhost) ((step_of_engine_listed hlisted).trans hengine),
    hcompleted.notPending, hcompleted.ovr.trans hovr, hcompleted.done⟩

end Race

/-! ### The obligations -/

/-- Settles O8, by the outcomes of each command. -/
theorem everyCommandCompletes : Obligations.EveryCommandCompletes :=
  exec_completes

/-- Settles O9: but for STATUS, a failed command has written the two checksums or nothing. -/
theorem failedCommandsWriteNothingElse : Obligations.FailedCommandsWriteNothingElse := by
  intro i s t hexec herr
  rcases exec_failed hexec herr with ⟨code, rfl⟩ | ⟨rfl, code, hcode, rfl⟩
  · have hkept := regsKept_complete code s
    exact ⟨fbKept_complete code s, fun _ => hkept, fun _ => hkept.mono (by decide), fun _ => hkept⟩
  · refine ⟨fbKept_complete code _, fun hne => absurd rfl hne, fun _ => regsKept_complete_recordChecksums code s,
      fun hlength => ?_⟩
    have hother : ∀ c ∈ [ErrCode.checksumMismatch, .lengthMismatch],
        ¬ (errValue c = errValue .frameTooShort ∨ errValue c = errValue .frameTooLong) := by decide
    exact absurd hlength (hother code hcode)

/-- Settles O48: the write sets the bit IE alone, which CTRL reads and `irq` takes in. -/
theorem irqFollowsEnableAndDone : Obligations.IrqFollowsEnableAndDone := by
  refine fun s => ⟨irq_eq_bits s, fun v hv => ?_⟩
  exact ⟨_, memWrite4_ctrl_of_not_srst hv s, BitVec.and_one_eq_setWidth_ofBool_getLsbD.symm, rfl,
    regsKept_ctrl_of_ie rfl rfl, rfl, rfl, rfl, rfl⟩

/-- Settles O54: only the engine raises DONE, and no agent puts a word in the place of a pending one. -/
theorem doneRisesOnlyByCompletion : Obligations.DoneRisesOnlyByCompletion := by
  intro s t hstep
  refine ⟨fun hbefore hafter => ?_, fun w => step_keeps_or_ends_pending hstep⟩
  obtain ⟨hturn, hbusy, hended⟩ := step_raises_done hstep hbefore hafter
  exact ⟨hbusy, hended, by rw [hostMoves, hturn]⟩

/-- Settles O58, by whose move it is: the host has no line, and the engine no command. -/
theorem idleBlockKeepsItsState : Obligations.IdleBlockKeepsItsState := by
  intro s hpend hend hreset
  rcases step_cases s with ⟨_, hs⟩ | ⟨_, hs⟩ | ⟨hturn, _⟩
  · have hnothing : hostStep (takeTurn s) = .next (takeTurn s) := hostStep_of_ended (s := takeTurn s) hend
    exact ⟨takeTurn s, hs.trans hnothing, rfl, rfl, rfl, rfl, rfl⟩
  · have hnothing : engineStep (takeTurn s) = .next (takeTurn s) := engineStep_of_idle (s := takeTurn s) hpend
    exact ⟨takeTurn s, hs.trans hnothing, rfl, rfl, rfl, rfl, rfl⟩
  · exact absurd hreset (by simp [resetMoves, hturn])

/-- Settles O59: the CMD write finds BUSY = 0 after the engine's step and BUSY = 1 before it. -/
theorem raceAdmitsBothOrders : Obligations.RaceAdmitsBothOrders :=
  fun _ _ _ hpend hline => ⟨run_engine_then_cmd hpend hline rfl, run_cmd_then_engine hpend hline rfl⟩

end Sys2Proof.Machine

/-! SUPPORT. The power-on reset, what the host reads while BUSY = 1, and the one way a step can stop: lemmas first, then
the obligations on the resets and the hazards (70_reset_and_hazards.md). -/

namespace Sys2Proof.Machine

variable {s : State}

/-! ### The reset state and the pulse of the reset pin (R260, R261) -/

/-- Every register's value at reset (R261). -/
theorem regValue_reset (r : RegName) : regValue State.reset r =
    if r = .evt then 0x00000001 else if r = .crc then 0x0000FFFF else 0x00000000 := by
  cases r <;> rfl

/-- With no byte written, every FB byte is that of the last power-on (10_state.md R43). -/
theorem fbByte_of_unwritten (h : s.fb = []) (i : Nat) : fbByte s i = Config.powerOnByte s.epoch i := by
  rw [fbByte, h, cellGet, Option.getD_none]

theorem step_of_powerOnReset_listed {rest : List Turn} (h : s.turns = .powerOnReset :: rest) :
    step s = .next (powerOnReset (takeTurn s)) := by
  rw [step, nextTurn_of_listed h]

/-! ### Reads while BUSY = 1 (R271) -/

/-- CTRL and STATUS read their own value, BUSY or not. -/
theorem readRegValue_of_ctrl_or_status {r : RegName} (hr : r ∈ [.ctrl, .status]) (s : State) :
    readRegValue s r = regValue s r := by
  rcases readRegValue_cases s r with ⟨_, hread⟩ | ⟨_, hctrl, hstatus, _⟩
  · exact hread
  · simp [hctrl, hstatus] at hr

/-- While BUSY = 1 every other register, CMD among them, reads as a free value. -/
theorem readRegValue_of_busy (hbusy : busy s = true) {r : RegName} (hr : r ∉ [.ctrl, .status]) :
    readRegValue s r = Config.freeWord s.draws := by
  rcases readRegValue_cases s r with ⟨hidle | rfl | rfl, _⟩ | ⟨_, _, _, hread⟩
  · exact absurd (hidle.symm.trans hbusy) Bool.false_ne_true
  · simp at hr
  · simp at hr
  · exact hread

theorem read1Response_of_busy (hbusy : busy s = true) {addr : Half} (h : legal1 s.cfg addr = true) :
    read1Response addr s = .readOk ((Config.freeByte s.draws).setWidth 32) := by
  simp [read1Response, h, hbusy]

/-! ### The hazard (R270) -/

/-- The line writes an input register or a legal FB offset: the hazard of rule R270 when a command is pending. -/
def WritesInputOrFb (c : Config) (addr : Half) (line : Option Line) : Prop :=
  (∃ v r, line = some (.write4 addr v) ∧ regAt addr = some r ∧ regIsInput r = true) ∨
    ∃ v, line = some (.write1 addr v) ∧ legal1 c addr = true

/-- The move answers a next state, or is the hazard at the host's line. -/
def GoesOnOrIsHazard (s : State) (line : Option Line) (o : Host.Outcome State Fault Refusal) : Prop :=
  (∃ t, o = .next t) ∨
    busy s = true ∧ ∃ addr, o = .fault (.hazardWriteWhileBusy addr) ∧ WritesInputOrFb s.cfg addr line

theorem memWrite4_of_input_busy (hbusy : busy s = true) {r : RegName} (hr : regIsInput r = true) (v : Word) :
    memWrite4 (regOffset r) v s = .fault (.hazardWriteWhileBusy (regOffset r)) := by
  rw [memWrite4_regOffset, hr, hbusy, Bool.and_self, if_pos rfl]

theorem memWrite1_of_legal_busy (hbusy : busy s = true) {addr : Half} (h : legal1 s.cfg addr = true) (v : Byte) :
    memWrite1 addr v s = .fault (.hazardWriteWhileBusy addr) := by
  simp [memWrite1, h, hbusy]

/-- Of the host's lines only the two writes can stop, by the hazard (20_memory.md R77). -/
theorem execLine_goesOnOrIsHazard (line : Line) (s : State) : GoesOnOrIsHazard s (some line) (execLine line s) := by
  cases line with
  | read4 addr x | read1 addr x | bnz x k target => exact .inl ⟨_, rfl⟩
  | write4 addr v =>
    rw [execLine]
    rcases memWrite4_cases addr v s with hw | ⟨r, hr, _, ⟨hin, hbusy, hw⟩ | ⟨_, hw⟩⟩ <;> rw [hw]
    · exact .inl ⟨_, rfl⟩
    · exact .inr ⟨hbusy, addr, rfl, .inl ⟨v, r, rfl, hr, hin⟩⟩
    · exact .inl ⟨_, rfl⟩
  | write1 addr v =>
    rw [execLine]
    rcases memWrite1_cases addr v s with ⟨_, hw⟩ | ⟨hlegal, hbusy, hw⟩ | ⟨_, _, hw⟩ <;> rw [hw]
    · exact .inl ⟨_, rfl⟩
    · exact .inr ⟨hbusy, addr, rfl, .inr ⟨v, rfl, hlegal⟩⟩
    · exact .inl ⟨_, rfl⟩

/-- The engine and the reset pin never stop the machine; the host stops it only by the hazard. -/
theorem step_goesOnOrIsHazard (s : State) : GoesOnOrIsHazard s (hostMoves s) (step s) := by
  rcases step_cases s with ⟨hturn, hs⟩ | ⟨_, hs⟩ | ⟨_, hs⟩ <;> rw [hs]
  · rw [hostMoves, hturn]
    rcases hostStep_cases (takeTurn s) with ⟨_, hhost⟩ | ⟨line, hline, hhost⟩ <;> rw [hhost]
    · exact .inl ⟨_, rfl⟩
    · rw [takeTurn_host] at hline
      rw [hline]
      exact execLine_goesOnOrIsHazard line (takeTurn s)
  · obtain ⟨t, ht, _⟩ := engineStep_ends (takeTurn s)
    exact .inl ⟨t, ht⟩
  · exact .inl ⟨_, rfl⟩

/-! ### The obligations -/

/-- Settles O39: the pulse leaves the register bits of the reset state, no pending command, and no written byte. -/
theorem powerOnResetRestoresTheBlock : Obligations.PowerOnResetRestoresTheBlock := by
  intro s rest hturns
  exact ⟨_, step_of_powerOnReset_listed hturns, regValue_congr rfl rfl, rfl, irq_of_not_done rfl, rfl,
    fbByte_of_unwritten rfl, rfl, rfl⟩

/-- Settles O49: a read of a register answers with what `readRegValue` gives, and every FB byte stands at a legal offset. -/
theorem readsWhileBusyAreFree : Obligations.ReadsWhileBusyAreFree := by
  intro s
  refine ⟨fun hbusy => ⟨?_, ?_, fun r hr => ?_, fun i hi hc => ?_⟩, fun hidle => ?_⟩
  · exact (read4Response_regOffset .ctrl s).trans (congrArg _ (readRegValue_of_ctrl_or_status (by decide) s))
  · exact (read4Response_regOffset .status s).trans (congrArg _ (readRegValue_of_ctrl_or_status (by decide) s))
  · rw [read4Response_regOffset, readRegValue_of_busy hbusy hr]
  · rw [← fbOffset_of_lt (lt_of_legal hc hi)]
    exact read1Response_of_busy hbusy ((legal1_fbOffset hc i).mpr hi)
  · exact (read4Response_regOffset .cmd s).trans (congrArg _ (readRegValue_of_idle hidle .cmd))

/-- Settles O51: each agent's move answers a next state, but for the hazard at a host's write. -/
theorem onlyTheHazardStopsAStep : Obligations.OnlyTheHazardStopsAStep := by
  intro s
  rcases step_goesOnOrIsHazard s with ⟨t, hs⟩ | ⟨hbusy, addr, hs, hwrites⟩ <;> rw [hs]
  · exact ⟨nofun, nofun⟩
  · refine ⟨nofun, fun f hf => ?_⟩
    exact ⟨hbusy, addr, (Host.Outcome.fault.inj hf).symm, hwrites⟩

/-- Settles O36, register by register. -/
theorem resetValuesAsListed : Obligations.ResetValuesAsListed :=
  ⟨regValue_reset, rfl, rfl, fun _ => rfl⟩

/-- Settles O50: the listed registers are the input registers, and every FB byte stands at a legal offset. -/
theorem writeWhileBusyFaults : Obligations.WriteWhileBusyFaults := by
  intro s hbusy
  refine ⟨fun r v hr => ?_, fun i v hi hc => ?_⟩
  · have hlisted : ∀ r ∈ [RegName.flen, .plen, .evt, .crc, .crcOff, .crcLen, .txPre, .txSidHi, .txSidLo, .txRidHi,
        .txRidLo, .txHdr], regIsInput r = true := by decide
    exact memWrite4_of_input_busy hbusy (hlisted r hr) v
  · rw [← fbOffset_of_lt (lt_of_legal hc hi)]
    exact memWrite1_of_legal_busy hbusy ((legal1_fbOffset hc i).mpr hi) v

/-- Settles O52: FB and the host's variables are empty lists at reset, and no command is pending. -/
theorem invariantHoldsAtReset : Obligations.InvariantHoldsAtReset where
  cfgLegal := by decide
  fbWf := reset_memory_wf
  varsWf := List.Pairwise.nil
  busyClean hbusy := by cases hbusy
  errNamed := Nat.zero_le 7
  idleSeenIdle _ := rfl

end Sys2Proof.Machine
